-- ==== Sys2Proof/Word.lean ====
section
/-! DEFINITION. The two word types of CORE: the 8-bit byte of registers and memory cells, the 16-bit address word. -/

namespace Sys2Proof

/-- A register or memory cell: 8 bits (spec R4, R20). -/
abbrev Byte := BitVec 8

/-- An address, a 16-bit immediate, `pc`, `SP` or a pair value: 16 bits (spec R4, R24, R26). `+` and `-` are
the spec's `+_16` and `-_16` (R5). -/
abbrev Word := BitVec 16

end Sys2Proof
end

