-- ==== Sys2Proof/Config.lean ====
section
/-! DEFINITION. What an implementation fixes: the memory window (`MEM_BASE`, `MEM_SIZE`), which the spec leaves OPEN
(R4, decision D7). CORE has no free value: nothing in it is undefined after an instruction (spec 93, Part 1). -/

namespace Sys2Proof

/-- The memory window a unit is built with: `MEM_BASE` and `MEM_SIZE` (spec R4, R51). It is configuration, not
architectural state (R20); `State.window` carries it so that one model covers every admissible pair (log entry 1). -/
structure Window where
  base : Word
  size : Nat
  deriving DecidableEq, Repr

/-- The constraint of R4: `1 <= MEM_SIZE` and `MEM_BASE + MEM_SIZE <= 65536`. -/
abbrev Window.Admissible (w : Window) : Prop :=
  1 ≤ w.size ∧ w.base.toNat + w.size ≤ 65536

/-- DESIGN CHOICE (log entry 1, unsafe): the window of `State.reset`. The spec leaves it OPEN (D7); this is the pair
most of its test vectors use (spec 95, conventions). -/
def Config.window : Window := { base := 0x0000#16, size := 65536 }

end Sys2Proof
end

