-- ==== Sys2Proof/Machine/State.lean ====
section
/-! DEFINITION. The state of CORE as plain data (spec R20), its value after `RESET` (R36), and the reasons a step
stops. -/

namespace Sys2Proof.Machine

/-- The seven general registers, 8 bits each (spec R20, R21). -/
structure Regs where
  a : Byte
  b : Byte
  c : Byte
  d : Byte
  e : Byte
  h : Byte
  l : Byte
  deriving DecidableEq, Repr

/-- The five condition flags, one bit each; there is no packed flag byte (spec R20, R28, R30). -/
structure Flags where
  s : Bool
  z : Bool
  ac : Bool
  p : Bool
  cy : Bool
  deriving DecidableEq, Repr

/-- `Mem` (spec R33): the cells as (absolute address, byte) pairs in canonical form (`Memory.wf` in Ops.lean); an
unlisted address reads as `unlistedByte`. -/
abbrev Memory := List Host.Cell

/-- What a cell that nothing has written reads as: 0x00, the value `RESET` gives every cell (spec R36). -/
def unlistedByte : Byte := 0x00#8

/-- The state of R20, and in `window` the configuration constants `MEM_BASE` and `MEM_SIZE` the unit was built with
(DESIGN CHOICE, log entry 1, safe: every instruction and every host request leaves the field alone, and a statement
over all states is a statement over all windows). -/
structure State where
  regs : Regs
  flags : Flags
  pc : Word
  sp : Word
  halted : Bool
  mem : Memory
  window : Window
  deriving DecidableEq, Repr

/-- Why a step stops. A stop carries no state: the machine's state is what it was before the step (spec R262, R120). -/
inductive Fault where
  /-- `DecodeError(op)`, raised by the fetch of an unrecognised opcode byte (spec R95, R260). Safe: the spec's own
  outcome. -/
  | decodeError (op : Byte)
  /-- `AccessFault(addr)`, raised by any fetch, data or stack access outside the window (spec R53, R261). Safe: the
  spec's own outcome. -/
  | accessFault (addr : Word)
  /-- The outcome `halted` of a `STEP` request when `HALTED = 1` (spec R120, R122), answered by `step` alone. Not a
  failure: the unit has no further step. DEDUCED, log entry 2. Safe: nothing happens in the hardware either. -/
  | halted
  deriving DecidableEq, Repr

/-- Why the model gives no meaning. -/
inductive Refusal where
  /-- An instruction without a meaning yet; only a refused arm of Dispatch.lean raises it, and there is none. Safe. -/
  | notModelled (mnemonic : String)
  deriving DecidableEq, Repr

/-- The state after `RESET` of a unit built with window `w` (spec R36, R290): every field zero, `pc` and `SP` at
`MEM_BASE`, every cell 0x00. -/
def State.resetFor (w : Window) : State where
  regs := { a := 0x00#8, b := 0x00#8, c := 0x00#8, d := 0x00#8, e := 0x00#8, h := 0x00#8, l := 0x00#8 }
  flags := { s := false, z := false, ac := false, p := false, cy := false }
  pc := w.base
  sp := w.base
  halted := false
  mem := []
  window := w

/-- The machine right after reset, with the window of Config.lean (log entry 1). -/
def State.reset : State := State.resetFor Config.window

end Sys2Proof.Machine
end

