-- ==== Sys2Proof/Machine/Flags.lean ====
section
/-! DEFINITION. The ALU and the flag generator (spec R125 to R128). -/

namespace Sys2Proof.Machine

/-- A flag as a number. -/
def bit (b : Bool) : Nat := if b then 1 else 0

/-- `add9(a, b, cin) = zext_9(a) + zext_9(b) + cin` (spec R125). -/
def add9 (a b : Byte) (cin : Bool) : BitVec 9 :=
  a.setWidth 9 + b.setWidth 9 + BitVec.ofNat 9 (bit cin)

/-- `sub9(a, b, bin) = (zext_9(a) - zext_9(b) - bin) mod 512` (spec R125, decision D10). -/
def sub9 (a b : Byte) (bin : Bool) : BitVec 9 :=
  a.setWidth 9 - b.setWidth 9 - BitVec.ofNat 9 (bit bin)

/-- `raw[7:0]`, what the ALU writes to a register (spec R125). -/
def low8 (raw : BitVec 9) : Byte := raw.extractLsb' 0 8

/-- How many of the eight bits are 1. -/
def onesIn (v : Byte) : Nat :=
  bit (v.getLsbD 0) + bit (v.getLsbD 1) + bit (v.getLsbD 2) + bit (v.getLsbD 3) +
    bit (v.getLsbD 4) + bit (v.getLsbD 5) + bit (v.getLsbD 6) + bit (v.getLsbD 7)

/-- `parity8(v)`: 1 when the number of 1 bits is even (spec R127). -/
def parity8 (v : Byte) : Bool := onesIn v % 2 == 0

/-- `flags(raw)`; `AC` is the approximation `r8 > 9` that the spec keeps (spec R126, decision D11). -/
def flagsOf (raw : BitVec 9) : Flags where
  s := (low8 raw).getLsbD 7
  z := low8 raw == 0x00#8
  ac := decide (9 < (low8 raw).toNat)
  p := parity8 (low8 raw)
  cy := raw.getLsbD 8

/-- The flags after `inr` and `dcr`: `S Z AC P` from `flags(raw)`, `CY` kept (spec R128). -/
def flagsKeepCarry (old : Flags) (raw : BitVec 9) : Flags :=
  { flagsOf raw with cy := old.cy }

/-- The flags after `ana ani ora xra`: `S Z AC P` from `flags(zext_9(r8))`, `CY` cleared (spec R128). -/
def flagsOfLogic (r8 : Byte) : Flags :=
  { flagsOf (r8.setWidth 9) with cy := false }

end Sys2Proof.Machine
end

