-- ==== Sys2Proof/Syntax.lean ====
section
/-! DEFINITION. The instructions of CORE: one constructor per instruction of rule R86 (the rows of
spec/opcode_table.json that differ in a register or pair field only are one constructor with that operand). -/

namespace Sys2Proof

/-- The seven general registers (spec R21). -/
inductive Reg where
  | b | c | d | e | h | l | a
  deriving DecidableEq, Repr

/-- The three register pairs (spec R6, R23), the operand of `push` and `pop`. -/
inductive Pair where
  | bc | de | hl
  deriving DecidableEq, Repr

/-- The operand of `lxi`: a register pair or `SP` (spec R23, R142). -/
inductive LxiDest where
  | pair (rp : Pair)
  | sp
  deriving DecidableEq, Repr

/-- The operand of `ldax` and `stax`: BC or DE only (spec R23, R147, R148). -/
inductive PtrPair where
  | bc | de
  deriving DecidableEq, Repr

/-- The eight conditions of the conditional jumps and calls (spec R85). -/
inductive Cond where
  | nz | z | nc | c | po | pe | p | m
  deriving DecidableEq, Repr

/-- The 53 instructions (spec R86), in the order of its table. -/
inductive Instr where
  -- data move
  | mov (dst src : Reg)
  | mvi (dst : Reg) (imm : Byte)
  | lxi (dst : LxiDest) (imm : Word)
  | lda (addr : Word)
  | sta (addr : Word)
  | lhld (addr : Word)
  | shld (addr : Word)
  | ldax (rp : PtrPair)
  | stax (rp : PtrPair)
  | xchg
  -- arithmetic
  | add (src : Reg)
  | adc (src : Reg)
  | adi (imm : Byte)
  | aci (imm : Byte)
  | sub (src : Reg)
  | sbb (src : Reg)
  | sui (imm : Byte)
  | inr (reg : Reg)
  | dcr (reg : Reg)
  -- logic
  | ana (src : Reg)
  | ani (imm : Byte)
  | ora (src : Reg)
  | xra (src : Reg)
  | cma
  | cmc
  -- rotate
  | rlc
  | rrc
  | ral
  | rar
  -- compare
  | cmp (src : Reg)
  | cpi (imm : Byte)
  -- control transfer
  | jmp (target : Word)
  | jnz (target : Word)
  | jz (target : Word)
  | jnc (target : Word)
  | jc (target : Word)
  | jpo (target : Word)
  | jpe (target : Word)
  | jp (target : Word)
  | jm (target : Word)
  | call (target : Word)
  | cnz (target : Word)
  | cz (target : Word)
  | cnc (target : Word)
  | cc (target : Word)
  | cpo (target : Word)
  | cpe (target : Word)
  | cp (target : Word)
  | cm (target : Word)
  | ret
  -- stack
  | push (rp : Pair)
  | pop (rp : Pair)
  -- halt
  | hlt
  deriving DecidableEq, Repr

end Sys2Proof
end

