-- ==== Sys2Proof/Machine/Codes.lean ====
section
/-! DEFINITION. The field codes of the encoding (registers R21, pairs R23, conditions R85) and the byte order of a
16-bit value (R5, R54). -/

namespace Sys2Proof

/-- `{hi, lo}`: the 16-bit value `hi * 256 + lo` (spec R5). -/
def wordOf (hi lo : Byte) : Word := hi ++ lo

/-- `hi8(v) = v[15:8]` (spec R5). -/
def hi8 (v : Word) : Byte := v.extractLsb' 8 8

/-- `lo8(v) = v[7:0]` (spec R5). -/
def lo8 (v : Word) : Byte := v.extractLsb' 0 8

/-- The 3-bit register code (spec R21). -/
def Reg.code : Reg → BitVec 3
  | .b => 0b000#3
  | .c => 0b001#3
  | .d => 0b010#3
  | .e => 0b011#3
  | .h => 0b100#3
  | .l => 0b101#3
  | .a => 0b111#3

/-- The register a 3-bit field names; 110 names none (spec R21, R84). -/
def Reg.ofCode (f : BitVec 3) : Option Reg :=
  match f with
  | 0b000#3 => some .b
  | 0b001#3 => some .c
  | 0b010#3 => some .d
  | 0b011#3 => some .e
  | 0b100#3 => some .h
  | 0b101#3 => some .l
  | 0b111#3 => some .a
  | _ => none

/-- The 2-bit pair code (spec R23). -/
def Pair.code : Pair → BitVec 2
  | .bc => 0b00#2
  | .de => 0b01#2
  | .hl => 0b10#2

/-- The pair a 2-bit field of `push` or `pop` names; 11 names none (spec R23). -/
def Pair.ofCode (f : BitVec 2) : Option Pair :=
  match f with
  | 0b00#2 => some .bc
  | 0b01#2 => some .de
  | 0b10#2 => some .hl
  | _ => none

/-- The 2-bit code of the operand of `lxi`; 11 is `SP` (spec R23). -/
def LxiDest.code : LxiDest → BitVec 2
  | .pair rp => rp.code
  | .sp => 0b11#2

/-- The operand a 2-bit field of `lxi` names (spec R23). -/
def LxiDest.ofCode (f : BitVec 2) : LxiDest :=
  match Pair.ofCode f with
  | some rp => .pair rp
  | none => .sp

/-- The 2-bit code of the operand of `ldax` and `stax` (spec R23, R81). -/
def PtrPair.code : PtrPair → BitVec 2
  | .bc => 0b00#2
  | .de => 0b01#2

/-- The register pair that `ldax` or `stax` takes its address from (spec R147, R148). -/
def PtrPair.toPair : PtrPair → Pair
  | .bc => .bc
  | .de => .de

/-- The 3-bit condition code (spec R85). -/
def Cond.code : Cond → BitVec 3
  | .nz => 0b000#3
  | .z => 0b001#3
  | .nc => 0b010#3
  | .c => 0b011#3
  | .po => 0b100#3
  | .pe => 0b101#3
  | .p => 0b110#3
  | .m => 0b111#3

end Sys2Proof
end

