-- ==== Sys2Proof/Machine/Ops.lean ====
section
/-! DEFINITION. The shared operations: the address decoder, memory reads and writes, the stack, the program counter,
raising a failure, and how an instruction's result becomes the outcome of its step. -/

namespace Sys2Proof.Machine

/-! ## Memory as data -/

/-- The canonical form of memory: addresses strictly rising, no entry equal to what an unlisted address reads as. -/
abbrev Memory.wf (m : Memory) : Prop :=
  m.Pairwise (fun x y => x.1 < y.1) ∧ ∀ c ∈ m, c.2 ≠ unlistedByte

/-- The byte at an address. -/
def Memory.read : Memory → Nat → Byte
  | [], _ => unlistedByte
  | c :: m, k => if c.1 = k then c.2 else Memory.read m k

/-- A cell at an address, or none where its byte is what an unlisted address reads as. -/
def Memory.cell (k : Nat) (v : Byte) (m : Memory) : Memory :=
  if v = unlistedByte then m else (k, v) :: m

/-- Set the byte at an address, keeping the canonical form. -/
def Memory.write : Memory → Nat → Byte → Memory
  | [], k, v => Memory.cell k v []
  | c :: m, k, v =>
    if k < c.1 then Memory.cell k v (c :: m)
    else if k = c.1 then Memory.cell k v m
    else c :: Memory.write m k v

/-- The memory that holds `image` at `base` and up (spec R292). -/
def Memory.ofImage (base : Nat) : List Byte → Memory
  | [] => []
  | v :: image => Memory.cell base v (Memory.ofImage (base + 1) image)

/-! ## The address decoder and byte accesses -/

/-- The decoder of R52: `idx = addr -_16 MEM_BASE`, inside exactly when `idx < MEM_SIZE`. -/
def inWindow (w : Window) (addr : Word) : Bool :=
  decide ((addr - w.base).toNat < w.size)

/-- `MemRead(addr, 1)` (spec R7, R52, R53). -/
def State.readByte (s : State) (addr : Word) : Except Fault Byte :=
  if inWindow s.window addr then .ok (Memory.read s.mem addr.toNat) else .error (.accessFault addr)

/-- `MemWrite(addr, 1, v)` (spec R7, R52, R53). -/
def State.writeByte (s : State) (addr : Word) (v : Byte) : Except Fault State :=
  if inWindow s.window addr then .ok { s with mem := Memory.write s.mem addr.toNat v }
  else .error (.accessFault addr)

/-- `MemRead(addr, 2)`: the byte at `addr`, then the byte at `addr +_16 1`, which is the high one (spec R7, R56). -/
def State.readWord (s : State) (addr : Word) : Except Fault Word :=
  match s.readByte addr with
  | .error f => .error f
  | .ok lo =>
    match s.readByte (addr + 1#16) with
    | .error f => .error f
    | .ok hi => .ok (wordOf hi lo)

/-- `MemWrite(addr, 2, v)`: `lo8(v)` to `addr`, then `hi8(v)` to `addr +_16 1` (spec R7, R57). -/
def State.writeWord (s : State) (addr : Word) (v : Word) : Except Fault State :=
  match s.writeByte addr (lo8 v) with
  | .error f => .error f
  | .ok s => s.writeByte (addr + 1#16) (hi8 v)

/-! ## The stack -/

/-- Push a 16-bit value: high byte to `SP -_16 1`, low byte to `SP -_16 2`, then `SP <- SP -_16 2` (spec R220, R240). -/
def State.pushWord (s : State) (v : Word) : Except Fault State :=
  match s.writeByte (s.sp - 1#16) (hi8 v) with
  | .error f => .error f
  | .ok s1 =>
    match s1.writeByte (s.sp - 2#16) (lo8 v) with
    | .error f => .error f
    | .ok s2 => .ok { s2 with sp := s.sp - 2#16 }

/-- Pop a 16-bit value: low byte from `SP`, high byte from `SP +_16 1`, then `SP <- SP +_16 2` (spec R230, R241). -/
def State.popWord (s : State) : Except Fault (Word × State) :=
  match s.readWord s.sp with
  | .error f => .error f
  | .ok v => .ok (v, { s with sp := s.sp + 2#16 })

/-! ## Program counter, flags, halt -/

/-- `pc <- pc +_16 len` (spec R25, R124). -/
def State.advance (s : State) (len : Word) : State := { s with pc := s.pc + len }

/-- `pc <- target` (spec R8, R210). -/
def State.jumpTo (s : State) (target : Word) : State := { s with pc := target }

/-- Write the five flags. -/
def State.setFlags (s : State) (f : Flags) : State := { s with flags := f }

/-- `HALTED <- 1` (spec R250). -/
def State.halt (s : State) : State := { s with halted := true }

/-! ## Failure and commit -/

/-- Raise a failure: the step ends with that outcome and nothing is written; there is no trap entry (spec R8, R262,
R263, R267). -/
def raise (f : Fault) : Host.Outcome State Fault Refusal := .fault f

/-- Phase 5 of R121: all new values are written at once when nothing raised; otherwise the failure is the outcome. -/
def commit : Except Fault State → Host.Outcome State Fault Refusal
  | .ok s => .next s
  | .error f => raise f

end Sys2Proof.Machine
end

