-- ==== Sys2Proof/Machine/Operands.lean ====
section
/-! DEFINITION. The operand forms: registers `x[i]`, the pair views `rp[j]`, the destination of `lxi`, the address pairs
of `ldax` and `stax`, and the conditions (spec R6, R21, R23, R85). -/

namespace Sys2Proof.Machine

/-- `x[i]` (spec R6, R21). -/
def Regs.get (r : Regs) : Reg → Byte
  | .a => r.a
  | .b => r.b
  | .c => r.c
  | .d => r.d
  | .e => r.e
  | .h => r.h
  | .l => r.l

/-- `x[i] <- v` (spec R6, R21). -/
def Regs.set (r : Regs) (i : Reg) (v : Byte) : Regs :=
  match i with
  | .a => { r with a := v }
  | .b => { r with b := v }
  | .c => { r with c := v }
  | .d => { r with d := v }
  | .e => { r with e := v }
  | .h => { r with h := v }
  | .l => { r with l := v }

/-- The pair views `BC = {B, C}`, `DE = {D, E}`, `HL = {H, L}` (spec R6, R23). -/
def Regs.getPair (r : Regs) : Pair → Word
  | .bc => wordOf r.b r.c
  | .de => wordOf r.d r.e
  | .hl => wordOf r.h r.l

/-- `BC <- v` means `B <- hi8(v); C <- lo8(v)`, and likewise DE and HL (spec R6). -/
def Regs.setPair (r : Regs) (rp : Pair) (v : Word) : Regs :=
  match rp with
  | .bc => { r with b := hi8 v, c := lo8 v }
  | .de => { r with d := hi8 v, e := lo8 v }
  | .hl => { r with h := hi8 v, l := lo8 v }

/-- Read a register of the state. -/
def State.reg (s : State) (i : Reg) : Byte := s.regs.get i

/-- Write a register of the state. -/
def State.setReg (s : State) (i : Reg) (v : Byte) : State := { s with regs := s.regs.set i v }

/-- Read a register pair of the state. -/
def State.pair (s : State) (rp : Pair) : Word := s.regs.getPair rp

/-- Write a register pair of the state. -/
def State.setPair (s : State) (rp : Pair) (v : Word) : State := { s with regs := s.regs.setPair rp v }

/-- Write the destination of `lxi`: a pair, or `SP` (spec R142). -/
def State.setLxiDest (s : State) (d : LxiDest) (v : Word) : State :=
  match d with
  | .pair rp => s.setPair rp v
  | .sp => { s with sp := v }

/-- The address `ldax` and `stax` use: BC or DE (spec R147, R148). -/
def State.pointer (s : State) (rp : PtrPair) : Word := s.pair rp.toPair

/-- `cond(ccc)` on the flags before the step (spec R85, R210). -/
def Cond.holds (f : Flags) : Cond → Bool
  | .nz => !f.z
  | .z => f.z
  | .nc => !f.cy
  | .c => f.cy
  | .po => !f.p
  | .pe => f.p
  | .p => !f.s
  | .m => f.s

end Sys2Proof.Machine
end

