-- ==== Sys2Proof/Machine/Arithmetic.lean ====
section
/-! DEFINITION. Arithmetic instructions (spec 42, R160 to R169). -/

namespace Sys2Proof.Machine

/-- `A <- raw[7:0]`, all five flags from `flags(raw)`, in an instruction of `len` bytes (spec R128). -/
def aluToA (raw : BitVec 9) (len : Word) (s : State) : Host.Outcome State Fault Refusal :=
  .next (((s.setReg .a (low8 raw)).setFlags (flagsOf raw)).advance len)

/-- `x[r] <- raw[7:0]`, `S Z AC P` from `flags(raw)`, `CY` kept (`inr`, `dcr`; spec R128). -/
def stepReg (r : Reg) (raw : BitVec 9) (s : State) : Host.Outcome State Fault Refusal :=
  .next (((s.setReg r (low8 raw)).setFlags (flagsKeepCarry s.flags raw)).advance 1#16)

/-- `add r` (spec R160). -/
def execAdd (src : Reg) (s : State) : Host.Outcome State Fault Refusal :=
  aluToA (add9 (s.reg .a) (s.reg src) false) 1#16 s

/-- `adc r` (spec R161). -/
def execAdc (src : Reg) (s : State) : Host.Outcome State Fault Refusal :=
  aluToA (add9 (s.reg .a) (s.reg src) s.flags.cy) 1#16 s

/-- `adi d8` (spec R162). -/
def execAdi (imm : Byte) (s : State) : Host.Outcome State Fault Refusal :=
  aluToA (add9 (s.reg .a) imm false) 2#16 s

/-- `aci d8` (spec R163). -/
def execAci (imm : Byte) (s : State) : Host.Outcome State Fault Refusal :=
  aluToA (add9 (s.reg .a) imm s.flags.cy) 2#16 s

/-- `sub r` (spec R164). -/
def execSub (src : Reg) (s : State) : Host.Outcome State Fault Refusal :=
  aluToA (sub9 (s.reg .a) (s.reg src) false) 1#16 s

/-- `sbb r` (spec R165). -/
def execSbb (src : Reg) (s : State) : Host.Outcome State Fault Refusal :=
  aluToA (sub9 (s.reg .a) (s.reg src) s.flags.cy) 1#16 s

/-- `sui d8` (spec R166). -/
def execSui (imm : Byte) (s : State) : Host.Outcome State Fault Refusal :=
  aluToA (sub9 (s.reg .a) imm false) 2#16 s

/-- `inr r` (spec R167). -/
def execInr (r : Reg) (s : State) : Host.Outcome State Fault Refusal :=
  stepReg r (add9 (s.reg r) 0x01#8 false) s

/-- `dcr r` (spec R168). -/
def execDcr (r : Reg) (s : State) : Host.Outcome State Fault Refusal :=
  stepReg r (sub9 (s.reg r) 0x01#8 false) s

end Sys2Proof.Machine
end

