-- ==== Sys2Proof/Machine/Compare.lean ====
section
/-! DEFINITION. Compare instructions (spec 45, R200 to R202): the five flags of `A - operand`, A not written. -/

namespace Sys2Proof.Machine

/-- All five flags from `flags(sub9(A, v, 0))`, in an instruction of `len` bytes (spec R128). -/
def compareA (v : Byte) (len : Word) (s : State) : Host.Outcome State Fault Refusal :=
  .next ((s.setFlags (flagsOf (sub9 (s.reg .a) v false))).advance len)

/-- `cmp r` (spec R200). -/
def execCmp (src : Reg) (s : State) : Host.Outcome State Fault Refusal := compareA (s.reg src) 1#16 s

/-- `cpi d8` (spec R201). -/
def execCpi (imm : Byte) (s : State) : Host.Outcome State Fault Refusal := compareA imm 2#16 s

end Sys2Proof.Machine
end

