-- ==== Sys2Proof/Machine/Control.lean ====
section
/-! DEFINITION. Control-transfer instructions (spec 46, R210 to R232). No flag and no general register changes; a
target is not checked by the step that jumps to it (R210). -/

namespace Sys2Proof.Machine

/-- `pc <- a16` if the condition holds, else `pc <- pc +_16 3` (spec R210). -/
def jumpIf (taken : Bool) (target : Word) (s : State) : Host.Outcome State Fault Refusal :=
  .next (if taken then s.jumpTo target else s.advance 3#16)

/-- The transfer of R220 if the condition holds: push `pc +_16 3`, then `pc <- a16`; else `pc <- pc +_16 3` with no
stack access. -/
def callIf (taken : Bool) (target : Word) (s : State) : Host.Outcome State Fault Refusal :=
  commit (if taken then
      match s.pushWord (s.pc + 3#16) with
      | .error f => .error f
      | .ok s => .ok (s.jumpTo target)
    else .ok (s.advance 3#16))

/-- `jmp a16` (spec R211). -/
def execJmp (target : Word) (s : State) : Host.Outcome State Fault Refusal := jumpIf true target s

/-- `jnz a16` (spec R212). -/
def execJnz (target : Word) (s : State) : Host.Outcome State Fault Refusal :=
  jumpIf (Cond.holds s.flags .nz) target s

/-- `jz a16` (spec R213). -/
def execJz (target : Word) (s : State) : Host.Outcome State Fault Refusal :=
  jumpIf (Cond.holds s.flags .z) target s

/-- `jnc a16` (spec R214). -/
def execJnc (target : Word) (s : State) : Host.Outcome State Fault Refusal :=
  jumpIf (Cond.holds s.flags .nc) target s

/-- `jc a16` (spec R215). -/
def execJc (target : Word) (s : State) : Host.Outcome State Fault Refusal :=
  jumpIf (Cond.holds s.flags .c) target s

/-- `jpo a16` (spec R216). -/
def execJpo (target : Word) (s : State) : Host.Outcome State Fault Refusal :=
  jumpIf (Cond.holds s.flags .po) target s

/-- `jpe a16` (spec R217). -/
def execJpe (target : Word) (s : State) : Host.Outcome State Fault Refusal :=
  jumpIf (Cond.holds s.flags .pe) target s

/-- `jp a16` (spec R218). -/
def execJp (target : Word) (s : State) : Host.Outcome State Fault Refusal :=
  jumpIf (Cond.holds s.flags .p) target s

/-- `jm a16` (spec R219). -/
def execJm (target : Word) (s : State) : Host.Outcome State Fault Refusal :=
  jumpIf (Cond.holds s.flags .m) target s

/-- `call a16` (spec R221). -/
def execCall (target : Word) (s : State) : Host.Outcome State Fault Refusal := callIf true target s

/-- `cnz a16` (spec R222). -/
def execCnz (target : Word) (s : State) : Host.Outcome State Fault Refusal :=
  callIf (Cond.holds s.flags .nz) target s

/-- `cz a16` (spec R223). -/
def execCz (target : Word) (s : State) : Host.Outcome State Fault Refusal :=
  callIf (Cond.holds s.flags .z) target s

/-- `cnc a16` (spec R224). -/
def execCnc (target : Word) (s : State) : Host.Outcome State Fault Refusal :=
  callIf (Cond.holds s.flags .nc) target s

/-- `cc a16` (spec R225). -/
def execCc (target : Word) (s : State) : Host.Outcome State Fault Refusal :=
  callIf (Cond.holds s.flags .c) target s

/-- `cpo a16` (spec R226). -/
def execCpo (target : Word) (s : State) : Host.Outcome State Fault Refusal :=
  callIf (Cond.holds s.flags .po) target s

/-- `cpe a16` (spec R227). -/
def execCpe (target : Word) (s : State) : Host.Outcome State Fault Refusal :=
  callIf (Cond.holds s.flags .pe) target s

/-- `cp a16` (spec R228). -/
def execCp (target : Word) (s : State) : Host.Outcome State Fault Refusal :=
  callIf (Cond.holds s.flags .p) target s

/-- `cm a16` (spec R229). -/
def execCm (target : Word) (s : State) : Host.Outcome State Fault Refusal :=
  callIf (Cond.holds s.flags .m) target s

/-- `ret` (spec R230). -/
def execRet (s : State) : Host.Outcome State Fault Refusal :=
  commit (match s.popWord with
    | .error f => .error f
    | .ok (v, s) => .ok (s.jumpTo v))

end Sys2Proof.Machine
end

