-- ==== Sys2Proof/Machine/DataMove.lean ====
section
/-! DEFINITION. Data-move instructions (spec 41, R140 to R150): no flag changes in any of them. -/

namespace Sys2Proof.Machine

/-- Load A from `addr` in an instruction of `len` bytes (`lda`, `ldax`; spec R143, R147). -/
def loadA (addr : Word) (len : Word) (s : State) : Host.Outcome State Fault Refusal :=
  commit (match s.readByte addr with
    | .error f => .error f
    | .ok v => .ok ((s.setReg .a v).advance len))

/-- Store A to `addr` in an instruction of `len` bytes (`sta`, `stax`; spec R144, R148). -/
def storeA (addr : Word) (len : Word) (s : State) : Host.Outcome State Fault Refusal :=
  commit (match s.writeByte addr (s.reg .a) with
    | .error f => .error f
    | .ok s => .ok (s.advance len))

/-- `mov r1,r2` (spec R140). -/
def execMov (dst src : Reg) (s : State) : Host.Outcome State Fault Refusal :=
  .next ((s.setReg dst (s.reg src)).advance 1#16)

/-- `mvi r,d8` (spec R141). -/
def execMvi (dst : Reg) (imm : Byte) (s : State) : Host.Outcome State Fault Refusal :=
  .next ((s.setReg dst imm).advance 2#16)

/-- `lxi rp,d16` (spec R142). -/
def execLxi (dst : LxiDest) (imm : Word) (s : State) : Host.Outcome State Fault Refusal :=
  .next ((s.setLxiDest dst imm).advance 3#16)

/-- `lda a16` (spec R143). -/
def execLda (addr : Word) (s : State) : Host.Outcome State Fault Refusal := loadA addr 3#16 s

/-- `sta a16` (spec R144). -/
def execSta (addr : Word) (s : State) : Host.Outcome State Fault Refusal := storeA addr 3#16 s

/-- `lhld a16`: L from `a16`, H from `a16 +_16 1` (spec R145). -/
def execLhld (addr : Word) (s : State) : Host.Outcome State Fault Refusal :=
  commit (match s.readWord addr with
    | .error f => .error f
    | .ok v => .ok ((s.setPair .hl v).advance 3#16))

/-- `shld a16`: L to `a16`, H to `a16 +_16 1` (spec R146). -/
def execShld (addr : Word) (s : State) : Host.Outcome State Fault Refusal :=
  commit (match s.writeWord addr (s.pair .hl) with
    | .error f => .error f
    | .ok s => .ok (s.advance 3#16))

/-- `ldax rp` (spec R147). -/
def execLdax (rp : PtrPair) (s : State) : Host.Outcome State Fault Refusal := loadA (s.pointer rp) 1#16 s

/-- `stax rp` (spec R148). -/
def execStax (rp : PtrPair) (s : State) : Host.Outcome State Fault Refusal := storeA (s.pointer rp) 1#16 s

/-- `xchg`: HL and DE change places, both right-hand sides read before the step writes (spec R149). -/
def execXchg (s : State) : Host.Outcome State Fault Refusal :=
  .next (((s.setPair .hl (s.pair .de)).setPair .de (s.pair .hl)).advance 1#16)

end Sys2Proof.Machine
end

