-- ==== Sys2Proof/Machine/Halt.lean ====
section
/-! DEFINITION. `hlt` (spec 48, R250). -/

namespace Sys2Proof.Machine

/-- `hlt`: `HALTED <- 1; pc <- pc +_16 1` (spec R250, decision D14). -/
def execHlt (s : State) : Host.Outcome State Fault Refusal := .next (s.halt.advance 1#16)

end Sys2Proof.Machine
end

