-- ==== Sys2Proof/Machine/Logic.lean ====
section
/-! DEFINITION. Logic instructions (spec 43, R180 to R186). -/

namespace Sys2Proof.Machine

/-- `A <- r8`, `S Z AC P` from `flags(r8)`, `CY <- 0`, in an instruction of `len` bytes (spec R128). -/
def logicToA (r8 : Byte) (len : Word) (s : State) : Host.Outcome State Fault Refusal :=
  .next (((s.setReg .a r8).setFlags (flagsOfLogic r8)).advance len)

/-- `ana r` (spec R180). -/
def execAna (src : Reg) (s : State) : Host.Outcome State Fault Refusal := logicToA (s.reg .a &&& s.reg src) 1#16 s

/-- `ani d8` (spec R181). -/
def execAni (imm : Byte) (s : State) : Host.Outcome State Fault Refusal := logicToA (s.reg .a &&& imm) 2#16 s

/-- `ora r` (spec R182). -/
def execOra (src : Reg) (s : State) : Host.Outcome State Fault Refusal := logicToA (s.reg .a ||| s.reg src) 1#16 s

/-- `xra r` (spec R183; `CY` cleared, conflict C1). -/
def execXra (src : Reg) (s : State) : Host.Outcome State Fault Refusal := logicToA (s.reg .a ^^^ s.reg src) 1#16 s

/-- `cma`: no flag changes (spec R184). -/
def execCma (s : State) : Host.Outcome State Fault Refusal :=
  .next ((s.setReg .a (~~~ s.reg .a)).advance 1#16)

/-- `cmc`: `CY` only (spec R185). -/
def execCmc (s : State) : Host.Outcome State Fault Refusal :=
  .next ((s.setFlags { s.flags with cy := !s.flags.cy }).advance 1#16)

end Sys2Proof.Machine
end

