-- ==== Sys2Proof/Machine/Rotate.lean ====
section
/-! DEFINITION. Rotate instructions (spec 44, R190 to R194): `CY` takes the bit rotated out, `S Z AC P` stay. -/

namespace Sys2Proof.Machine

/-- `A <- v; CY <- out`, a one-byte instruction (spec R190 to R193). -/
def rotateToA (v : Byte) (out : Bool) (s : State) : Host.Outcome State Fault Refusal :=
  .next (((s.setReg .a v).setFlags { s.flags with cy := out }).advance 1#16)

/-- `{v[6:0], low}`: a left shift by one with `low` entering bit 0. -/
def shiftInLow (v : Byte) (low : Bool) : Byte := v.extractLsb' 0 7 ++ BitVec.ofBool low

/-- `{high, v[7:1]}`: a right shift by one with `high` entering bit 7. -/
def shiftInHigh (v : Byte) (high : Bool) : Byte := BitVec.ofBool high ++ v.extractLsb' 1 7

/-- `rlc` (spec R190). -/
def execRlc (s : State) : Host.Outcome State Fault Refusal :=
  rotateToA (shiftInLow (s.reg .a) ((s.reg .a).getLsbD 7)) ((s.reg .a).getLsbD 7) s

/-- `rrc` (spec R191). -/
def execRrc (s : State) : Host.Outcome State Fault Refusal :=
  rotateToA (shiftInHigh (s.reg .a) ((s.reg .a).getLsbD 0)) ((s.reg .a).getLsbD 0) s

/-- `ral` (spec R192). -/
def execRal (s : State) : Host.Outcome State Fault Refusal :=
  rotateToA (shiftInLow (s.reg .a) s.flags.cy) ((s.reg .a).getLsbD 7) s

/-- `rar` (spec R193). -/
def execRar (s : State) : Host.Outcome State Fault Refusal :=
  rotateToA (shiftInHigh (s.reg .a) s.flags.cy) ((s.reg .a).getLsbD 0) s

end Sys2Proof.Machine
end

