-- ==== Sys2Proof/Machine/Stack.lean ====
section
/-! DEFINITION. Stack instructions (spec 47, R240 to R242). -/

namespace Sys2Proof.Machine

/-- `push rp` (spec R240). -/
def execPush (rp : Pair) (s : State) : Host.Outcome State Fault Refusal :=
  commit (match s.pushWord (s.pair rp) with
    | .error f => .error f
    | .ok s => .ok (s.advance 1#16))

/-- `pop rp` (spec R241). -/
def execPop (rp : Pair) (s : State) : Host.Outcome State Fault Refusal :=
  commit (match s.popWord with
    | .error f => .error f
    | .ok (v, s) => .ok ((s.setPair rp v).advance 1#16))

end Sys2Proof.Machine
end

