-- ==== Sys2Proof/Machine/Dispatch.lean ====
section
/-! DEFINITION. The dispatch: one arm per instruction, each one call of its meaning. -/

namespace Sys2Proof.Machine

def exec (i : Instr) (s : State) : Host.Outcome State Fault Refusal :=
  match i with
  -- data move
  | .mov dst src => Sys2Proof.Machine.execMov dst src s
  | .mvi dst imm => Sys2Proof.Machine.execMvi dst imm s
  | .lxi dst imm => Sys2Proof.Machine.execLxi dst imm s
  | .lda addr => Sys2Proof.Machine.execLda addr s
  | .sta addr => Sys2Proof.Machine.execSta addr s
  | .lhld addr => Sys2Proof.Machine.execLhld addr s
  | .shld addr => Sys2Proof.Machine.execShld addr s
  | .ldax rp => Sys2Proof.Machine.execLdax rp s
  | .stax rp => Sys2Proof.Machine.execStax rp s
  | .xchg => Sys2Proof.Machine.execXchg s
  -- arithmetic
  | .add src => Sys2Proof.Machine.execAdd src s
  | .adc src => Sys2Proof.Machine.execAdc src s
  | .adi imm => Sys2Proof.Machine.execAdi imm s
  | .aci imm => Sys2Proof.Machine.execAci imm s
  | .sub src => Sys2Proof.Machine.execSub src s
  | .sbb src => Sys2Proof.Machine.execSbb src s
  | .sui imm => Sys2Proof.Machine.execSui imm s
  | .inr reg => Sys2Proof.Machine.execInr reg s
  | .dcr reg => Sys2Proof.Machine.execDcr reg s
  -- logic
  | .ana src => Sys2Proof.Machine.execAna src s
  | .ani imm => Sys2Proof.Machine.execAni imm s
  | .ora src => Sys2Proof.Machine.execOra src s
  | .xra src => Sys2Proof.Machine.execXra src s
  | .cma => Sys2Proof.Machine.execCma s
  | .cmc => Sys2Proof.Machine.execCmc s
  -- rotate
  | .rlc => Sys2Proof.Machine.execRlc s
  | .rrc => Sys2Proof.Machine.execRrc s
  | .ral => Sys2Proof.Machine.execRal s
  | .rar => Sys2Proof.Machine.execRar s
  -- compare
  | .cmp src => Sys2Proof.Machine.execCmp src s
  | .cpi imm => Sys2Proof.Machine.execCpi imm s
  -- control transfer
  | .jmp target => Sys2Proof.Machine.execJmp target s
  | .jnz target => Sys2Proof.Machine.execJnz target s
  | .jz target => Sys2Proof.Machine.execJz target s
  | .jnc target => Sys2Proof.Machine.execJnc target s
  | .jc target => Sys2Proof.Machine.execJc target s
  | .jpo target => Sys2Proof.Machine.execJpo target s
  | .jpe target => Sys2Proof.Machine.execJpe target s
  | .jp target => Sys2Proof.Machine.execJp target s
  | .jm target => Sys2Proof.Machine.execJm target s
  | .call target => Sys2Proof.Machine.execCall target s
  | .cnz target => Sys2Proof.Machine.execCnz target s
  | .cz target => Sys2Proof.Machine.execCz target s
  | .cnc target => Sys2Proof.Machine.execCnc target s
  | .cc target => Sys2Proof.Machine.execCc target s
  | .cpo target => Sys2Proof.Machine.execCpo target s
  | .cpe target => Sys2Proof.Machine.execCpe target s
  | .cp target => Sys2Proof.Machine.execCp target s
  | .cm target => Sys2Proof.Machine.execCm target s
  | .ret => Sys2Proof.Machine.execRet s
  -- stack
  | .push rp => Sys2Proof.Machine.execPush rp s
  | .pop rp => Sys2Proof.Machine.execPop rp s
  -- halt
  | .hlt => Sys2Proof.Machine.execHlt s

end Sys2Proof.Machine
end

