-- ==== Sys2Proof/WellFormed.lean ====
section
/-! DEFINITION. Which field values an instruction may hold (spec R21, R23, R84). The operand types of Syntax.lean hold
exactly the operands the spec admits, so every term of `Instr` passes (Laws/PerInstr.lean); the checks themselves are
on the field codes, and they refuse the codes the spec refuses (Tests/Slice0.lean, the smoke tests). -/

namespace Sys2Proof

/-- A register field holds any code but 110 (spec R21, R84). -/
def regFieldOk (f : BitVec 3) : Bool := f != 0b110#3

/-- The pair field of `push` and `pop` holds 00, 01 or 10 (spec R23, R81). -/
def stackPairFieldOk (f : BitVec 2) : Bool := f != 0b11#2

/-- The pair field of `ldax` and `stax` holds 00 or 01 (spec R23, R81). -/
def pointerPairFieldOk (f : BitVec 2) : Bool := f == 0b00#2 || f == 0b01#2

/-- The field checks of one instruction, by the format table of R81. `lxi` admits all four pair codes; immediates
and addresses take every value of their width (R88). -/
def Instr.wellFormed : Instr → Bool
  | .mov dst r => regFieldOk dst.code && regFieldOk r.code
  | .mvi dst _ => regFieldOk dst.code
  | .ldax rp => pointerPairFieldOk rp.code
  | .stax rp => pointerPairFieldOk rp.code
  | .add r => regFieldOk r.code
  | .adc r => regFieldOk r.code
  | .sub r => regFieldOk r.code
  | .sbb r => regFieldOk r.code
  | .inr r => regFieldOk r.code
  | .dcr r => regFieldOk r.code
  | .ana r => regFieldOk r.code
  | .ora r => regFieldOk r.code
  | .xra r => regFieldOk r.code
  | .cmp r => regFieldOk r.code
  | .push rp => stackPairFieldOk rp.code
  | .pop rp => stackPairFieldOk rp.code
  | .lxi _ _ | .lda _ | .sta _ | .lhld _ | .shld _ | .xchg => true
  | .adi _ | .aci _ | .sui _ | .ani _ | .cpi _ => true
  | .cma | .cmc | .rlc | .rrc | .ral | .rar | .ret | .hlt => true
  | .jmp _ | .jnz _ | .jz _ | .jnc _ | .jc _ | .jpo _ | .jpe _ | .jp _ | .jm _ => true
  | .call _ | .cnz _ | .cz _ | .cnc _ | .cc _ | .cpo _ | .cpe _ | .cp _ | .cm _ => true

end Sys2Proof
end

