-- ==== Sys2Proof/Decode.lean ====
section
/-! DEFINITION. The decoder, total on any bytes and rejecting by name, and after it the encoder, both written from the
format table R81, the opcode list R86 and the grid R87. -/

namespace Sys2Proof

/-- What the opcode byte alone selects (spec R80, R88): a one-byte instruction, or an instruction that waits for its
8-bit or its 16-bit operand. -/
inductive Template where
  | complete (i : Instr)
  | imm8 (mk : Byte → Instr)
  | imm16 (mk : Word → Instr)

/-- How many bytes the instruction has (spec R80, R86). -/
def Template.len : Template → Nat
  | .complete _ => 1
  | .imm8 _ => 2
  | .imm16 _ => 3

/-- Why bytes are no instruction. -/
inductive DecodeReject where
  /-- There is no opcode byte. -/
  | noByte
  /-- The opcode byte is one of the 80 unrecognised values (spec R95). -/
  | unrecognised (op : Byte)
  /-- The operand bytes that the opcode byte asks for are missing. -/
  | truncated (op : Byte)
  deriving DecidableEq, Repr

/-- `op[7:6] = 00`, by `y = op[5:3]` and `z = op[2:0]`: formats PI, P (`ldax stax`), A, RD, RI and N (spec R81, R86). -/
def decodeOp00 (y z : BitVec 3) : Option Template :=
  match z with
  | 0b001#3 =>
    if y.getLsbD 0 then none else some (.imm16 (.lxi (LxiDest.ofCode (y.extractLsb' 1 2))))
  | 0b010#3 =>
    match y with
    | 0b000#3 => some (.complete (.stax .bc))
    | 0b001#3 => some (.complete (.ldax .bc))
    | 0b010#3 => some (.complete (.stax .de))
    | 0b011#3 => some (.complete (.ldax .de))
    | 0b100#3 => some (.imm16 .shld)
    | 0b101#3 => some (.imm16 .lhld)
    | 0b110#3 => some (.imm16 .sta)
    | _ => some (.imm16 .lda)
  | 0b100#3 => (Reg.ofCode y).map fun r => .complete (.inr r)
  | 0b101#3 => (Reg.ofCode y).map fun r => .complete (.dcr r)
  | 0b110#3 => (Reg.ofCode y).map fun r => .imm8 (.mvi r)
  | 0b111#3 =>
    match y with
    | 0b000#3 => some (.complete .rlc)
    | 0b001#3 => some (.complete .rrc)
    | 0b010#3 => some (.complete .ral)
    | 0b011#3 => some (.complete .rar)
    | 0b101#3 => some (.complete .cma)
    | 0b111#3 => some (.complete .cmc)
    | _ => none
  | _ => none

/-- `op[7:6] = 01`: `mov` (format R2), or `hlt` where both fields are 110 (spec R84). -/
def decodeOp01 (y z : BitVec 3) : Option Template :=
  match Reg.ofCode y, Reg.ofCode z with
  | some dst, some r => some (.complete (.mov dst r))
  | none, none => some (.complete .hlt)
  | _, _ => none

/-- `op[7:6] = 10`: format RS, the operation in `y` and the source register in `z` (spec R81). -/
def decodeOp10 (y z : BitVec 3) : Option Template :=
  (Reg.ofCode z).map fun r =>
    match y with
    | 0b000#3 => .complete (.add r)
    | 0b001#3 => .complete (.adc r)
    | 0b010#3 => .complete (.sub r)
    | 0b011#3 => .complete (.sbb r)
    | 0b100#3 => .complete (.ana r)
    | 0b101#3 => .complete (.xra r)
    | 0b110#3 => .complete (.ora r)
    | _ => .complete (.cmp r)

/-- `op[7:6] = 11`: formats P (`push pop`), CA, A, I and N (spec R81, R86). -/
def decodeOp11 (y z : BitVec 3) : Option Template :=
  match z with
  | 0b001#3 =>
    if y.getLsbD 0 then (if y = 0b001#3 then some (.complete .ret) else none)
    else (Pair.ofCode (y.extractLsb' 1 2)).map fun rp => .complete (.pop rp)
  | 0b010#3 =>
    match y with
    | 0b000#3 => some (.imm16 .jnz)
    | 0b001#3 => some (.imm16 .jz)
    | 0b010#3 => some (.imm16 .jnc)
    | 0b011#3 => some (.imm16 .jc)
    | 0b100#3 => some (.imm16 .jpo)
    | 0b101#3 => some (.imm16 .jpe)
    | 0b110#3 => some (.imm16 .jp)
    | _ => some (.imm16 .jm)
  | 0b011#3 =>
    match y with
    | 0b000#3 => some (.imm16 .jmp)
    | 0b101#3 => some (.complete .xchg)
    | _ => none
  | 0b100#3 =>
    match y with
    | 0b000#3 => some (.imm16 .cnz)
    | 0b001#3 => some (.imm16 .cz)
    | 0b010#3 => some (.imm16 .cnc)
    | 0b011#3 => some (.imm16 .cc)
    | 0b100#3 => some (.imm16 .cpo)
    | 0b101#3 => some (.imm16 .cpe)
    | 0b110#3 => some (.imm16 .cp)
    | _ => some (.imm16 .cm)
  | 0b101#3 =>
    if y.getLsbD 0 then (if y = 0b001#3 then some (.imm16 .call) else none)
    else (Pair.ofCode (y.extractLsb' 1 2)).map fun rp => .complete (.push rp)
  | 0b110#3 =>
    match y with
    | 0b000#3 => some (.imm8 .adi)
    | 0b001#3 => some (.imm8 .aci)
    | 0b010#3 => some (.imm8 .sui)
    | 0b100#3 => some (.imm8 .ani)
    | 0b111#3 => some (.imm8 .cpi)
    | _ => none
  | _ => none

/-- The decode procedure of R88: a total function of the opcode byte alone; `none` is "not recognised" (R95). -/
def decodeOp (op : Byte) : Option Template :=
  match op.extractLsb' 6 2 with
  | 0b00#2 => decodeOp00 (op.extractLsb' 3 3) (op.extractLsb' 0 3)
  | 0b01#2 => decodeOp01 (op.extractLsb' 3 3) (op.extractLsb' 0 3)
  | 0b10#2 => decodeOp10 (op.extractLsb' 3 3) (op.extractLsb' 0 3)
  | _ => decodeOp11 (op.extractLsb' 3 3) (op.extractLsb' 0 3)

/-- Decode the first instruction of a byte sequence and give back the rest. A 16-bit operand is little-endian
(spec R9, R82). -/
def decode : List Byte → Except DecodeReject (Instr × List Byte)
  | [] => .error .noByte
  | op :: rest =>
    match decodeOp op with
    | none => .error (.unrecognised op)
    | some (.complete i) => .ok (i, rest)
    | some (.imm8 mk) =>
      match rest with
      | b1 :: rest => .ok (mk b1, rest)
      | _ => .error (.truncated op)
    | some (.imm16 mk) =>
      match rest with
      | b1 :: b2 :: rest => .ok (mk (wordOf b2 b1), rest)
      | _ => .error (.truncated op)

/-- The opcode byte of an instruction (spec R81, R86). -/
def Instr.opcode : Instr → Byte
  | .mov dst r => 0b01#2 ++ dst.code ++ r.code
  | .mvi dst _ => 0b00#2 ++ dst.code ++ 0b110#3
  | .lxi dst _ => 0b00#2 ++ dst.code ++ 0b0001#4
  | .lda _ => 0x3A#8
  | .sta _ => 0x32#8
  | .lhld _ => 0x2A#8
  | .shld _ => 0x22#8
  | .ldax rp => 0b00#2 ++ rp.code ++ 0b1010#4
  | .stax rp => 0b00#2 ++ rp.code ++ 0b0010#4
  | .xchg => 0xEB#8
  | .add r => 0b10000#5 ++ r.code
  | .adc r => 0b10001#5 ++ r.code
  | .adi _ => 0xC6#8
  | .aci _ => 0xCE#8
  | .sub r => 0b10010#5 ++ r.code
  | .sbb r => 0b10011#5 ++ r.code
  | .sui _ => 0xD6#8
  | .inr r => 0b00#2 ++ r.code ++ 0b100#3
  | .dcr r => 0b00#2 ++ r.code ++ 0b101#3
  | .ana r => 0b10100#5 ++ r.code
  | .ani _ => 0xE6#8
  | .ora r => 0b10110#5 ++ r.code
  | .xra r => 0b10101#5 ++ r.code
  | .cma => 0x2F#8
  | .cmc => 0x3F#8
  | .rlc => 0x07#8
  | .rrc => 0x0F#8
  | .ral => 0x17#8
  | .rar => 0x1F#8
  | .cmp r => 0b10111#5 ++ r.code
  | .cpi _ => 0xFE#8
  | .jmp _ => 0xC3#8
  | .jnz _ => 0b11#2 ++ Cond.nz.code ++ 0b010#3
  | .jz _ => 0b11#2 ++ Cond.z.code ++ 0b010#3
  | .jnc _ => 0b11#2 ++ Cond.nc.code ++ 0b010#3
  | .jc _ => 0b11#2 ++ Cond.c.code ++ 0b010#3
  | .jpo _ => 0b11#2 ++ Cond.po.code ++ 0b010#3
  | .jpe _ => 0b11#2 ++ Cond.pe.code ++ 0b010#3
  | .jp _ => 0b11#2 ++ Cond.p.code ++ 0b010#3
  | .jm _ => 0b11#2 ++ Cond.m.code ++ 0b010#3
  | .call _ => 0xCD#8
  | .cnz _ => 0b11#2 ++ Cond.nz.code ++ 0b100#3
  | .cz _ => 0b11#2 ++ Cond.z.code ++ 0b100#3
  | .cnc _ => 0b11#2 ++ Cond.nc.code ++ 0b100#3
  | .cc _ => 0b11#2 ++ Cond.c.code ++ 0b100#3
  | .cpo _ => 0b11#2 ++ Cond.po.code ++ 0b100#3
  | .cpe _ => 0b11#2 ++ Cond.pe.code ++ 0b100#3
  | .cp _ => 0b11#2 ++ Cond.p.code ++ 0b100#3
  | .cm _ => 0b11#2 ++ Cond.m.code ++ 0b100#3
  | .ret => 0xC9#8
  | .push rp => 0b11#2 ++ rp.code ++ 0b0101#4
  | .pop rp => 0b11#2 ++ rp.code ++ 0b0001#4
  | .hlt => 0x76#8

/-- A 16-bit operand as it is embedded: `[low, high]` (spec R54, R82). -/
def operand16 (v : Word) : List Byte := [lo8 v, hi8 v]

/-- The operand bytes that follow the opcode byte (spec R80, R81). -/
def Instr.operandBytes : Instr → List Byte
  | .mvi _ d8 | .adi d8 | .aci d8 | .sui d8 | .ani d8 | .cpi d8 => [d8]
  | .lxi _ a16 | .lda a16 | .sta a16 | .lhld a16 | .shld a16 => operand16 a16
  | .jmp a16 | .jnz a16 | .jz a16 | .jnc a16 | .jc a16 | .jpo a16 | .jpe a16 | .jp a16 | .jm a16 => operand16 a16
  | .call a16 | .cnz a16 | .cz a16 | .cnc a16 | .cc a16 | .cpo a16 | .cpe a16 | .cp a16 | .cm a16 => operand16 a16
  | .mov _ _ | .ldax _ | .stax _ | .xchg => []
  | .add _ | .adc _ | .sub _ | .sbb _ | .inr _ | .dcr _ => []
  | .ana _ | .ora _ | .xra _ | .cma | .cmc | .rlc | .rrc | .ral | .rar | .cmp _ => []
  | .ret | .push _ | .pop _ | .hlt => []

/-- The words of an instruction: its bytes in memory order (spec R80). -/
def encode (i : Instr) : List Byte := i.opcode :: i.operandBytes

/-- `len` of the table of R86. -/
def Instr.len : Instr → Nat
  | .mvi _ _ | .adi _ | .aci _ | .sui _ | .ani _ | .cpi _ => 2
  | .lxi _ _ | .lda _ | .sta _ | .lhld _ | .shld _ => 3
  | .jmp _ | .jnz _ | .jz _ | .jnc _ | .jc _ | .jpo _ | .jpe _ | .jp _ | .jm _ => 3
  | .call _ | .cnz _ | .cz _ | .cnc _ | .cc _ | .cpo _ | .cpe _ | .cp _ | .cm _ => 3
  | .mov _ _ | .ldax _ | .stax _ | .xchg => 1
  | .add _ | .adc _ | .sub _ | .sbb _ | .inr _ | .dcr _ => 1
  | .ana _ | .ora _ | .xra _ | .cma | .cmc | .rlc | .rrc | .ral | .rar | .cmp _ => 1
  | .ret | .push _ | .pop _ | .hlt => 1

/-- The longest instruction as three bytes, from a table word numbered as spec/opcode_table.json numbers it: the first
byte is bits 7..0. Bits at and above `nbits` are zero. -/
def tableWordBytes (nbits w : Nat) : List Byte :=
  [BitVec.ofNat 8 (w % 2 ^ nbits), BitVec.ofNat 8 (w % 2 ^ nbits / 256), BitVec.ofNat 8 (w % 2 ^ nbits / 65536)]

/-- The instruction the decoder reads from a table word (none where it refuses). -/
def decodeTableWord (nbits w : Nat) : Option Instr :=
  match decode (tableWordBytes nbits w) with
  | .ok (i, _) => some i
  | .error _ => none

end Sys2Proof
end

