-- ==== Sys2Proof/Machine/Fetch.lean ====
section
/-! DEFINITION. Phases 1 to 3 of the step cycle (spec R121): fetch the opcode byte, decode it, fetch the operand bytes. -/

namespace Sys2Proof.Machine

/-- Phase 3: the operand bytes at `pc +_16 1` and `pc +_16 2`, as far as the opcode asks for them (spec R9, R121). -/
def fetchOperands (t : Template) (s : State) : Except Fault Instr :=
  match t with
  | .complete i => .ok i
  | .imm8 mk =>
    match s.readByte (s.pc + 1#16) with
    | .error f => .error f
    | .ok b1 => .ok (mk b1)
  | .imm16 mk =>
    match s.readWord (s.pc + 1#16) with
    | .error f => .error f
    | .ok a16 => .ok (mk a16)

/-- Phases 1 to 3: `AccessFault(pc)`, then `DecodeError(op)`, then `AccessFault` on `b1`, on `b2` (spec R121, R265). -/
def fetchInstr (s : State) : Except Fault Instr :=
  match s.readByte s.pc with
  | .error f => .error f
  | .ok op =>
    match decodeOp op with
    | none => .error (.decodeError op)
    | some t => fetchOperands t s

/-- Set a byte where the decoder finds a cell, and nothing elsewhere: for placing an instruction from outside. -/
def State.placeByte (s : State) (addr : Word) (v : Byte) : State :=
  if inWindow s.window addr then { s with mem := Memory.write s.mem addr.toNat v } else s

/-- Place bytes at `addr` and up. -/
def State.placeBytes (s : State) (addr : Word) : List Byte → State
  | [] => s
  | v :: vs => State.placeBytes (s.placeByte addr v) (addr + 1#16) vs

/-- What `withFetchWord` does: the three bytes of a table word at `pc`, and the ready condition (`HALTED = 0`). -/
def placeTableWord (s : State) (nbits w : Nat) : State :=
  { s.placeBytes s.pc (tableWordBytes nbits w) with halted := false }

end Sys2Proof.Machine
end

