-- ==== Sys2Proof/Machine/Step.lean ====
section
/-! DEFINITION. One `STEP` request (spec R120, R121). -/

namespace Sys2Proof.Machine

/-- Nothing when halted (R120); otherwise fetch, decode, execute one instruction, or fail (R121). -/
def step (s : State) : Host.Outcome State Fault Refusal :=
  if s.halted then .fault .halted
  else
    match fetchInstr s with
    | .error f => raise f
    | .ok i => exec i s

/-- `s` with the instruction of a table word stored where `step` fetches next: at `pc`, in the ready condition. From
`State.reset` this stands for the `LOAD` of a one-instruction image (log entry 7). -/
def State.withFetchWord (s : State) (nbits w : Nat) : State := placeTableWord s nbits w

end Sys2Proof.Machine
end

