-- ==== Sys2Proof/Machine/HostPort.lean ====
section
/-! DEFINITION. The host port (spec 70, R290 to R301): the five requests `RESET`, `LOAD`, `STEP`, `PEEK`, `POKE`, each
atomic, each answered with a reply and the state it leaves. An overlap of two requests has no move (R297, log entry 8). -/

namespace Sys2Proof.Machine

/-- A memory cell as the host names it: by address or by window index (spec R298). -/
inductive CellRef where
  | address (addr : Word)
  | index (i : Nat)
  deriving DecidableEq, Repr

/-- The five flags by name (spec R298). -/
inductive FlagName where
  | s | z | ac | p | cy
  deriving DecidableEq, Repr

/-- What `PEEK` can read: everything (spec R298). -/
inductive PeekTarget where
  | reg (r : Reg)
  | cell (c : CellRef)
  | flag (f : FlagName)
  | pc
  | sp
  | halted
  deriving DecidableEq, Repr

/-- What `POKE` can write: one register or one memory cell, nothing else (spec R299, R300). -/
inductive PokeTarget where
  | reg (r : Reg)
  | cell (c : CellRef)
  deriving DecidableEq, Repr

/-- The five requests (spec R296). A poked value is any number, taken modulo 256 (R299). -/
inductive Request where
  | reset
  | load (image : List Byte)
  | step
  | peek (target : PeekTarget)
  | poke (target : PokeTarget) (v : Nat)
  deriving DecidableEq, Repr

/-- Why the port refuses a request; a refused request changes nothing (spec R298, R299, R292). -/
inductive PortRefusal where
  /-- `PEEK` or `POKE` of a cell outside the window (spec R298, R299). -/
  | outsideWindow
  /-- `LOAD` of an image that is not exactly `MEM_SIZE` bytes (spec R292; log entry 8). -/
  | imageLength
  /-- A step the model gives no meaning; no step is refused so. -/
  | noMeaning
  deriving DecidableEq, Repr

/-- What comes back: the outcomes of `STEP` (spec R122), the values of `PEEK`, and the port's refusal. -/
inductive Reply where
  | ok
  | halted
  | decodeError (op : Byte)
  | accessFault (addr : Word)
  | byte (v : Byte)
  | word (v : Word)
  | bit (b : Bool)
  | refused (r : PortRefusal)
  deriving DecidableEq, Repr

/-- The address of a cell inside the window, by address or by index (`MEM_BASE + i`; spec R33, R298). -/
def cellAddress (w : Window) : CellRef → Option Word
  | .address addr => if inWindow w addr then some addr else none
  | .index i => if i < w.size then some (w.base + BitVec.ofNat 16 i) else none

/-- A flag by name. -/
def Flags.get (f : Flags) : FlagName → Bool
  | .s => f.s
  | .z => f.z
  | .ac => f.ac
  | .p => f.p
  | .cy => f.cy

/-- `RESET` (spec R290): it does not depend on the state before it, save for the unit's window. -/
def hostReset (s : State) : State := State.resetFor s.window

/-- `LOAD(image)`: a `RESET`, then the whole image at once (spec R292). -/
def hostLoad (image : List Byte) (s : State) : Reply × State :=
  if image.length = s.window.size then
    (.ok, { hostReset s with mem := Memory.ofImage s.window.base.toNat image })
  else (.refused .imageLength, s)

/-- `STEP`, with the outcomes of R122; the state of a step that is not `ok` is the state before it (R120, R262). -/
def hostStep (s : State) : Reply × State :=
  match step s with
  | .next t => (.ok, t)
  | .fault .halted => (.halted, s)
  | .fault (.decodeError op) => (.decodeError op, s)
  | .fault (.accessFault addr) => (.accessFault addr, s)
  | .refused _ => (.refused .noMeaning, s)

/-- `PEEK` (spec R298). -/
def hostPeek (target : PeekTarget) (s : State) : Reply :=
  match target with
  | .reg r => .byte (s.reg r)
  | .flag f => .bit (s.flags.get f)
  | .pc => .word s.pc
  | .sp => .word s.sp
  | .halted => .bit s.halted
  | .cell c =>
    match cellAddress s.window c with
    | some addr => .byte (Memory.read s.mem addr.toNat)
    | none => .refused .outsideWindow

/-- `POKE` (spec R299). -/
def hostPoke (target : PokeTarget) (v : Nat) (s : State) : Reply × State :=
  match target with
  | .reg r => (.ok, s.setReg r (BitVec.ofNat 8 v))
  | .cell c =>
    match cellAddress s.window c with
    | some addr => (.ok, { s with mem := Memory.write s.mem addr.toNat (BitVec.ofNat 8 v) })
    | none => (.refused .outsideWindow, s)

/-- One request, served to its end (spec R296). -/
def serve (r : Request) (s : State) : Reply × State :=
  match r with
  | .reset => (.ok, hostReset s)
  | .load image => hostLoad image s
  | .step => hostStep s
  | .peek target => (hostPeek target s, s)
  | .poke target v => hostPoke target v s

end Sys2Proof.Machine
end

