-- ==== Sys2Proof/Safety.lean ====
section
/-! DEFINITION. What counts as a legal state, as a run, and as a normal or an abnormal end (spec R35, R252, R301). -/

namespace Sys2Proof.Machine

/-- Every listed cell lies in the window (spec R33, R51). -/
abbrev CellsInside (s : State) : Prop :=
  ∀ c ∈ s.mem, s.window.base.toNat ≤ c.1 ∧ c.1 < s.window.base.toNat + s.window.size

/-- The invariant of the model: the window is admissible (R4), memory keeps its canonical form, and it lists cells of
the window only (R33). The widths of R35 hold by type. -/
abbrev State.Inv (s : State) : Prop :=
  s.window.Admissible ∧ Memory.wf s.mem ∧ CellsInside s

/-- The states the five requests can produce on a unit with window `w`, from its first `RESET` on (spec R291, R301). -/
inductive Reachable (w : Window) : State → Prop where
  | reset : Reachable w (State.resetFor w)
  | request {s : State} (r : Request) : Reachable w s → Reachable w (serve r s).2

/-- Zero or more steps, each with outcome `ok` (spec R252). -/
inductive Steps : State → State → Prop where
  | refl (s : State) : Steps s s
  | next {s t u : State} : step s = .next t → Steps t u → Steps s u

/-- A run that ended with `HALTED = 1` (spec R252). -/
def NormalEnd (s : State) : Prop := s.halted = true

/-- A run that ended because the next step fails with `DecodeError` or `AccessFault` (spec R252). -/
def AbnormalEnd (s : State) : Prop :=
  (∃ op, step s = .fault (.decodeError op)) ∨ ∃ addr, step s = .fault (.accessFault addr)

end Sys2Proof.Machine
end

