-- ==== Sys2Proof/Certificates/Slice0/Obligations.lean ====
section
/-! DEFINITION. The statements for the provers. Rule numbers R<n> are those of spec/. A 16-bit address in `readByte` is
read through the address decoder, so "reads as before" says both the byte and whether the address is in the window. A
premise `Memory.wf` is the model's own form of memory (log entry 4), which `State.Inv` keeps in every state a run reaches;
`decode` on a list of bytes is the model's too (log entry 12), tied to the fetch by `StepRunsTheDecodedInstruction`. -/

namespace Sys2Proof.Stated
open Sys2Proof.Machine

/-! ## The vocabulary of the statements, written from the rules and not from the meanings -/

/-- Every byte of memory reads as before. -/
def SameMemory (s t : State) : Prop := ∀ addr, t.readByte addr = s.readByte addr

/-- Every byte of memory outside the listed addresses reads as before. -/
def SameMemoryExcept (addrs : List Word) (s t : State) : Prop :=
  ∀ addr, addr ∉ addrs → t.readByte addr = s.readByte addr

/-- The number of 1 bits of a byte is even (R127), counted. -/
def evenOnes (v : Byte) : Bool := ((List.range 8).filter fun i => v.getLsbD i).length % 2 == 0

/-- The flags R126 gives for the 8-bit result `v`, in numbers, with the carry given apart. -/
def resultFlags (v : Byte) (carry : Bool) : Flags where
  s := decide (128 ≤ v.toNat)
  z := decide (v.toNat = 0)
  ac := decide (9 < v.toNat)
  p := evenOnes v
  cy := carry

/-- A carry or borrow input as a number. -/
def carryIn (b : Bool) : Nat := if b then 1 else 0

/-- The state after an add-family instruction of `len` bytes that adds `v` and `cin` to A: the sum in A modulo 256, the
five flags of it, `CY` exactly when the true sum exceeds 255 (R125, R126, R128). -/
def afterSum (s : State) (v : Byte) (cin : Bool) (len : Word) : State :=
  let sum := (s.regs.get .a).toNat + v.toNat + carryIn cin
  { s with
    regs := s.regs.set .a (BitVec.ofNat 8 sum),
    flags := resultFlags (BitVec.ofNat 8 sum) (decide (255 < sum)),
    pc := s.pc + len }

/-- The difference `A - v - bin` modulo 256, in numbers. -/
def difference (a v : Byte) (bin : Bool) : Byte := BitVec.ofNat 8 (a.toNat + 256 - (v.toNat + carryIn bin))

/-- The flags of a subtraction: `CY` exactly when it borrowed, `A < v + bin` as integers (R125, R126). -/
def differenceFlags (a v : Byte) (bin : Bool) : Flags :=
  resultFlags (difference a v bin) (decide (a.toNat < v.toNat + carryIn bin))

/-- The state after a subtract-family instruction of `len` bytes. -/
def afterDifference (s : State) (v : Byte) (bin : Bool) (len : Word) : State :=
  { s with
    regs := s.regs.set .a (difference (s.regs.get .a) v bin),
    flags := differenceFlags (s.regs.get .a) v bin,
    pc := s.pc + len }

/-- The state after a logic instruction of `len` bytes with result `v`: `CY` cleared (R128). -/
def afterLogic (s : State) (v : Byte) (len : Word) : State :=
  { s with regs := s.regs.set .a v, flags := resultFlags v false, pc := s.pc + len }

/-- The state after a rotate with new A (a number) and the bit rotated out (R190 to R193). -/
def afterRotate (s : State) (v : Nat) (out : Bool) : State :=
  { s with regs := s.regs.set .a (BitVec.ofNat 8 v), flags := { s.flags with cy := out }, pc := s.pc + 1#16 }

/-- The 80 unrecognised opcode bytes, as R95 lists them. -/
def unrecognisedBytes : List Nat :=
  [0x00, 0x03, 0x08, 0x09, 0x0B, 0x10, 0x13, 0x18, 0x19, 0x1B, 0x20, 0x23, 0x27, 0x28, 0x29, 0x2B, 0x30, 0x33,
    0x34, 0x35, 0x36, 0x37, 0x38, 0x39, 0x3B, 0x46, 0x4E, 0x56, 0x5E, 0x66, 0x6E, 0x70, 0x71, 0x72, 0x73, 0x74] ++
  [0x75, 0x77, 0x7E, 0x86, 0x8E, 0x96, 0x9E, 0xA6, 0xAE, 0xB6, 0xBE, 0xC0, 0xC7, 0xC8, 0xCB, 0xCF, 0xD0, 0xD3,
    0xD7, 0xD8, 0xD9, 0xDB, 0xDD, 0xDE, 0xDF, 0xE0, 0xE3, 0xE7, 0xE8, 0xE9, 0xED, 0xEE, 0xEF, 0xF0, 0xF1, 0xF3] ++
  [0xF5, 0xF6, 0xF7, 0xF8, 0xF9, 0xFB, 0xFD, 0xFF]

/-- The condition of a conditional jump or call; `none` for every other instruction (R85, R210). -/
def conditionOf : Instr → Option Cond
  | .jnz _ | .cnz _ => some .nz
  | .jz _ | .cz _ => some .z
  | .jnc _ | .cnc _ => some .nc
  | .jc _ | .cc _ => some .c
  | .jpo _ | .cpo _ => some .po
  | .jpe _ | .cpe _ => some .pe
  | .jp _ | .cp _ => some .p
  | .jm _ | .cm _ => some .m
  | .mov _ _ | .mvi _ _ | .lxi _ _ | .lda _ | .sta _ | .lhld _ | .shld _ | .ldax _ | .stax _ | .xchg => none
  | .add _ | .adc _ | .adi _ | .aci _ | .sub _ | .sbb _ | .sui _ | .inr _ | .dcr _ | .cmp _ | .cpi _ => none
  | .ana _ | .ani _ | .ora _ | .xra _ | .cma | .cmc | .rlc | .rrc | .ral | .rar => none
  | .jmp _ | .call _ | .ret | .push _ | .pop _ | .hlt => none

/-- The target of a jump (R211 to R219). -/
def jumpTarget : Instr → Option Word
  | .jmp a | .jnz a | .jz a | .jnc a | .jc a | .jpo a | .jpe a | .jp a | .jm a => some a
  | .mov _ _ | .mvi _ _ | .lxi _ _ | .lda _ | .sta _ | .lhld _ | .shld _ | .ldax _ | .stax _ | .xchg => none
  | .add _ | .adc _ | .adi _ | .aci _ | .sub _ | .sbb _ | .sui _ | .inr _ | .dcr _ | .cmp _ | .cpi _ => none
  | .ana _ | .ani _ | .ora _ | .xra _ | .cma | .cmc | .rlc | .rrc | .ral | .rar => none
  | .call _ | .cnz _ | .cz _ | .cnc _ | .cc _ | .cpo _ | .cpe _ | .cp _ | .cm _ => none
  | .ret | .push _ | .pop _ | .hlt => none

/-- The target of a call (R221 to R229). -/
def callTarget : Instr → Option Word
  | .call a | .cnz a | .cz a | .cnc a | .cc a | .cpo a | .cpe a | .cp a | .cm a => some a
  | .mov _ _ | .mvi _ _ | .lxi _ _ | .lda _ | .sta _ | .lhld _ | .shld _ | .ldax _ | .stax _ | .xchg => none
  | .add _ | .adc _ | .adi _ | .aci _ | .sub _ | .sbb _ | .sui _ | .inr _ | .dcr _ | .cmp _ | .cpi _ => none
  | .ana _ | .ani _ | .ora _ | .xra _ | .cma | .cmc | .rlc | .rrc | .ral | .rar => none
  | .jmp _ | .jnz _ | .jz _ | .jnc _ | .jc _ | .jpo _ | .jpe _ | .jp _ | .jm _ => none
  | .ret | .push _ | .pop _ | .hlt => none

/-- A conditional form transfers when its condition holds on the flags before the step, an unconditional one always
(R85, R210). -/
def taken (i : Instr) (s : State) : Bool :=
  match conditionOf i with
  | some cond => Cond.holds s.flags cond
  | none => true

/-- The data and stack addresses an instruction accesses, in the order of the table of R58. -/
def accesses (i : Instr) (s : State) : List Word :=
  match i with
  | .lda a | .sta a => [a]
  | .lhld a | .shld a => [a, a + 1#16]
  | .ldax rp | .stax rp => [match rp with | .bc => s.regs.b ++ s.regs.c | .de => s.regs.d ++ s.regs.e]
  | .push _ => [s.sp - 1#16, s.sp - 2#16]
  | .pop _ | .ret => [s.sp, s.sp + 1#16]
  | .call _ | .cnz _ | .cz _ | .cnc _ | .cc _ | .cpo _ | .cpe _ | .cp _ | .cm _ =>
    if taken i s then [s.sp - 1#16, s.sp - 2#16] else []
  | .mov _ _ | .mvi _ _ | .lxi _ _ | .xchg | .hlt => []
  | .add _ | .adc _ | .adi _ | .aci _ | .sub _ | .sbb _ | .sui _ | .inr _ | .dcr _ | .cmp _ | .cpi _ => []
  | .ana _ | .ani _ | .ora _ | .xra _ | .cma | .cmc | .rlc | .rrc | .ral | .rar => []
  | .jmp _ | .jnz _ | .jz _ | .jnc _ | .jc _ | .jpo _ | .jpe _ | .jp _ | .jm _ => []

/-- The addresses an instruction writes: the writes column of the table of R58. -/
def storesTo (i : Instr) (s : State) : List Word :=
  match i with
  | .sta _ | .shld _ | .stax _ | .push _ => accesses i s
  | .call _ | .cnz _ | .cz _ | .cnc _ | .cc _ | .cpo _ | .cpe _ | .cp _ | .cm _ => accesses i s
  | .lda _ | .lhld _ | .ldax _ | .pop _ | .ret => []
  | .mov _ _ | .mvi _ _ | .lxi _ _ | .xchg | .hlt => []
  | .add _ | .adc _ | .adi _ | .aci _ | .sub _ | .sbb _ | .sui _ | .inr _ | .dcr _ | .cmp _ | .cpi _ => []
  | .ana _ | .ani _ | .ora _ | .xra _ | .cma | .cmc | .rlc | .rrc | .ral | .rar => []
  | .jmp _ | .jnz _ | .jz _ | .jnc _ | .jc _ | .jpo _ | .jpe _ | .jp _ | .jm _ => []

/-- The two registers of a pair (R23). -/
def pairRegisters : Pair → List Reg
  | .bc => [.b, .c]
  | .de => [.d, .e]
  | .hl => [.h, .l]

/-- The registers the destination of `lxi` is made of (R142). -/
def lxiRegisters : LxiDest → List Reg
  | .pair rp => pairRegisters rp
  | .sp => []

/-- The registers an instruction writes (R22 and the instruction rules). -/
def registersWritten : Instr → List Reg
  | .mov dst _ | .mvi dst _ => [dst]
  | .lxi dst _ => lxiRegisters dst
  | .pop rp => pairRegisters rp
  | .lhld _ => [.h, .l]
  | .xchg => [.d, .e, .h, .l]
  | .inr r | .dcr r => [r]
  | .lda _ | .ldax _ => [.a]
  | .add _ | .adc _ | .adi _ | .aci _ | .sub _ | .sbb _ | .sui _ => [.a]
  | .ana _ | .ani _ | .ora _ | .xra _ | .cma | .rlc | .rrc | .ral | .rar => [.a]
  | .sta _ | .shld _ | .stax _ | .cmc | .cmp _ | .cpi _ => []
  | .jmp _ | .jnz _ | .jz _ | .jnc _ | .jc _ | .jpo _ | .jpe _ | .jp _ | .jm _ => []
  | .call _ | .cnz _ | .cz _ | .cnc _ | .cc _ | .cpo _ | .cpe _ | .cp _ | .cm _ => []
  | .ret | .push _ | .hlt => []

/-- The flags an instruction writes: the table of R29. -/
def flagsWritten : Instr → List FlagName
  | .add _ | .adc _ | .adi _ | .aci _ | .sub _ | .sbb _ | .sui _ => [.s, .z, .ac, .p, .cy]
  | .cmp _ | .cpi _ => [.s, .z, .ac, .p, .cy]
  | .inr _ | .dcr _ => [.s, .z, .ac, .p]
  | .ana _ | .ani _ | .ora _ | .xra _ => [.s, .z, .ac, .p, .cy]
  | .cmc | .rlc | .rrc | .ral | .rar => [.cy]
  | .mov _ _ | .mvi _ _ | .lxi _ _ | .lda _ | .sta _ | .lhld _ | .shld _ | .ldax _ | .stax _ | .xchg | .cma => []
  | .jmp _ | .jnz _ | .jz _ | .jnc _ | .jc _ | .jpo _ | .jpe _ | .jp _ | .jm _ => []
  | .call _ | .cnz _ | .cz _ | .cnc _ | .cc _ | .cpo _ | .cpe _ | .cp _ | .cm _ => []
  | .ret | .push _ | .pop _ | .hlt => []

/-- `SP` after an instruction (R26): loaded by `lxi sp`, down by 2 on `push` and a call that transfers, up by 2 on `pop`
and `ret`, otherwise kept; the arithmetic wraps. -/
def stackPointerAfter (i : Instr) (s : State) : Word :=
  match i with
  | .lxi dst v => match dst with | .sp => v | .pair _ => s.sp
  | .push _ => s.sp - 2#16
  | .pop _ | .ret => s.sp + 2#16
  | .call _ | .cnz _ | .cz _ | .cnc _ | .cc _ | .cpo _ | .cpe _ | .cp _ | .cm _ =>
    if taken i s then s.sp - 2#16 else s.sp
  | .mov _ _ | .mvi _ _ | .lda _ | .sta _ | .lhld _ | .shld _ | .ldax _ | .stax _ | .xchg | .hlt => s.sp
  | .add _ | .adc _ | .adi _ | .aci _ | .sub _ | .sbb _ | .sui _ | .inr _ | .dcr _ | .cmp _ | .cpi _ => s.sp
  | .ana _ | .ani _ | .ora _ | .xra _ | .cma | .cmc | .rlc | .rrc | .ral | .rar => s.sp
  | .jmp _ | .jnz _ | .jz _ | .jnc _ | .jc _ | .jpo _ | .jpe _ | .jp _ | .jm _ => s.sp

/-- Execute one instruction `n` times. -/
def repeated (i : Instr) : Nat → State → Host.Outcome State Fault Refusal
  | 0, s => .next s
  | n + 1, s =>
    match exec i s with
    | .next t => repeated i n t
    | .fault f => .fault f
    | .refused r => .refused r

/-- `s` with another value of the `AC` flag. -/
def withAc (s : State) (b : Bool) : State := { s with flags := { s.flags with ac := b } }

/-- Two outcomes that differ at most in the `AC` flag of the next state. -/
def SameButAc : Host.Outcome State Fault Refusal → Host.Outcome State Fault Refusal → Prop
  | .next t, .next u => ∃ b, u = withAc t b
  | .fault f, .fault g => f = g
  | .refused r, .refused q => r = q
  | _, _ => False

/-- The opcode bytes of the nine calls and the flag value each needs (R221 to R229), for `CallsPushTheReturnAddress`. -/
def callForms (a : Word) (f : Flags) : List (Instr × Byte × Bool) :=
  [(.call a, 0xCD#8, true), (.cnz a, 0xC4#8, f.z == false), (.cz a, 0xCC#8, f.z == true),
    (.cnc a, 0xD4#8, f.cy == false), (.cc a, 0xDC#8, f.cy == true), (.cpo a, 0xE4#8, f.p == false),
    (.cpe a, 0xEC#8, f.p == true), (.cp a, 0xF4#8, f.s == false), (.cm a, 0xFC#8, f.s == true)]

end Sys2Proof.Stated

open Sys2Proof Sys2Proof.Machine Sys2Proof.Stated

/-! ## Encoding -/

/-- R80, R81, R86: no bit of an encoding is dropped; the bytes of every instruction, followed by anything, decode to
that instruction and leave what follows. -/
def Obligations.EncodedInstructionDecodesToItself : Prop :=
  ∀ (i : Instr) (rest : List Byte), decode (encode i ++ rest) = .ok (i, rest)

/-- R86, R88: each recognised word has one spelling; whatever bytes decode to an instruction are its encoding. -/
def Obligations.DecodedBytesAreTheEncoding : Prop :=
  ∀ (bytes : List Byte) (i : Instr) (rest : List Byte),
    decode bytes = .ok (i, rest) → bytes = encode i ++ rest

/-- R95: the unrecognised opcode bytes are exactly the 80 of the list, and executing one raises `DecodeError(op)`. -/
def Obligations.TheEightyUnrecognisedBytesRaiseDecodeError : Prop :=
  (∀ op : Byte, decodeOp op = none ↔ op.toNat ∈ unrecognisedBytes) ∧ unrecognisedBytes.length = 80 ∧
  ∀ (s : State) (op : Byte), s.halted = false → s.readByte s.pc = .ok op → op.toNat ∈ unrecognisedBytes →
    step s = .fault (.decodeError op)

/-- R80, R88: the opcode byte alone selects the instruction and its length, and every value of the operand bytes is a
legal operand. -/
def Obligations.RecognisedOpcodeTakesEveryOperand : Prop :=
  ∀ (op b1 b2 : Byte), op.toNat ∉ unrecognisedBytes →
    ∃ (i : Instr) (rest : List Byte), decode [op, b1, b2] = .ok (i, rest) ∧ i.opcode = op ∧ i.len + rest.length = 3 ∧
      ∀ c1 c2 : Byte, ∃ (j : Instr) (rest' : List Byte),
        decode [op, c1, c2] = .ok (j, rest') ∧ j.opcode = op ∧ j.len = i.len

/-- R21, R23, R84: the register and pair codes; 110 names no register and 11 no pair of `push` or `pop`. -/
def Obligations.FieldCodesNameTheirOperands : Prop :=
  (Reg.ofCode 0b000#3 = some .b ∧ Reg.ofCode 0b001#3 = some .c ∧ Reg.ofCode 0b010#3 = some .d ∧
    Reg.ofCode 0b011#3 = some .e ∧ Reg.ofCode 0b100#3 = some .h ∧ Reg.ofCode 0b101#3 = some .l ∧
    Reg.ofCode 0b110#3 = none ∧ Reg.ofCode 0b111#3 = some .a) ∧
  (Pair.ofCode 0b00#2 = some .bc ∧ Pair.ofCode 0b01#2 = some .de ∧ Pair.ofCode 0b10#2 = some .hl ∧
    Pair.ofCode 0b11#2 = none) ∧
  (LxiDest.ofCode 0b00#2 = .pair .bc ∧ LxiDest.ofCode 0b01#2 = .pair .de ∧ LxiDest.ofCode 0b10#2 = .pair .hl ∧
    LxiDest.ofCode 0b11#2 = .sp)

/-- R86: words written out from the opcode list, one or two of every family, decode to their instructions. -/
def Obligations.WrittenWordsDecode : Prop :=
  decode [0x47#8] = .ok (.mov .b .a, []) ∧ decode [0x21#8, 0x34#8, 0x12#8] = .ok (.lxi (.pair .hl) 0x1234#16, []) ∧
  decode [0x22#8, 0x40#8, 0x00#8] = .ok (.shld 0x0040#16, []) ∧ decode [0xEB#8] = .ok (.xchg, []) ∧
  decode [0x9D#8] = .ok (.sbb .l, []) ∧ decode [0xCE#8, 0xBE#8] = .ok (.aci 0xBE#8, []) ∧
  decode [0xB1#8] = .ok (.ora .c, []) ∧ decode [0x3F#8] = .ok (.cmc, []) ∧ decode [0x1F#8] = .ok (.rar, []) ∧
  decode [0xFE#8, 0x40#8] = .ok (.cpi 0x40#8, []) ∧ decode [0xE2#8, 0x23#8, 0x01#8] = .ok (.jpo 0x0123#16, []) ∧
  decode [0xDC#8, 0x20#8, 0x00#8] = .ok (.cc 0x0020#16, []) ∧ decode [0xC9#8] = .ok (.ret, []) ∧
  decode [0xD5#8] = .ok (.push .de, []) ∧ decode [0xE1#8] = .ok (.pop .hl, []) ∧ decode [0x76#8] = .ok (.hlt, [])

/-! ## Reset, load, the invariant -/

/-- R36, R290, R292: `RESET` zeroes every register and flag, clears `HALTED`, puts `pc` and `SP` at `MEM_BASE` and every
cell at 0x00, whatever the state before; `LOAD(image)` does the same and then sets `Mem[i] = image[i]`. -/
def Obligations.ResetAndLoadSetEveryPieceOfState : Prop :=
  (∀ s : State, ∃ t : State, serve .reset s = (.ok, t) ∧
    (∀ r, t.reg r = 0x00#8) ∧ (∀ f, t.flags.get f = false) ∧ t.pc = s.window.base ∧ t.sp = s.window.base ∧
    t.halted = false ∧ t.window = s.window ∧
    ∀ addr, inWindow s.window addr = true → t.readByte addr = .ok 0x00#8) ∧
  (∀ (s : State) (image : List Byte), s.window.Admissible → image.length = s.window.size →
    ∃ t : State, serve (.load image) s = (.ok, t) ∧
      (∀ r, t.reg r = 0x00#8) ∧ (∀ f, t.flags.get f = false) ∧ t.pc = s.window.base ∧ t.sp = s.window.base ∧
      t.halted = false ∧ t.window = s.window ∧
      ∀ (i : Nat) (v : Byte), image[i]? = some v → t.readByte (s.window.base + BitVec.ofNat 16 i) = .ok v)

/-- The invariant holds right after reset, for every admissible window and for the window of `State.reset` (which is
the model's choice, log entry 1). -/
def Obligations.ResetSatisfiesInvariant : Prop :=
  (∀ w : Window, w.Admissible → (State.resetFor w).Inv) ∧ State.reset.Inv

/-- Every step keeps the invariant: the window stays admissible, memory inside the window and in its canonical form (the
model's form of memory, log entry 4; that the window is a field of the state is log entry 1). -/
def Obligations.StepKeepsInvariant : Prop :=
  ∀ s t : State, s.Inv → step s = .next t → t.Inv ∧ t.window = s.window

/-- R33, R35, R301: whatever the host requests, in whatever order, every state of the unit satisfies the invariant and
keeps the window it was built with (the window as a field is log entry 1, the canonical form log entry 4, the refusal of a
`LOAD` of the wrong length log entry 8). -/
def Obligations.EveryReachableStateSatisfiesInvariant : Prop :=
  ∀ (w : Window) (s : State), w.Admissible → Reachable w s → s.Inv ∧ s.window = w

/-! ## The step cycle -/

/-- R121: when the bytes at `pc` decode to an instruction, a step of a unit that is not halted is exactly that
instruction's execution; the step adds nothing around it. -/
def Obligations.StepRunsTheDecodedInstruction : Prop :=
  ∀ (s : State) (i : Instr) (bytes : List Byte), s.halted = false → decode bytes = .ok (i, []) →
    (∀ (k : Nat) (v : Byte), bytes[k]? = some v → s.readByte (s.pc + BitVec.ofNat 16 k) = .ok v) →
    step s = exec i s

/-- R120: a `STEP` request when `HALTED = 1` has outcome `halted` and changes nothing, and only `RESET` or `LOAD` leaves
the condition. -/
def Obligations.HaltedStepDoesNothing : Prop :=
  ∀ s : State, s.halted = true →
    serve .step s = (.halted, s) ∧
    ∀ r : Request, (serve r s).2.halted = false → r = .reset ∨ ∃ image, r = .load image

/-- R252: a run that reached `HALTED = 1` has ended; no step leads on. (`step` answers the stop `halted` there: the
model's form of the outcome of R120, log entry 2.) -/
def Obligations.NoStepLeavesAHaltedState : Prop :=
  ∀ s t : State, Steps s t → NormalEnd s → t = s

/-- R121, R265: the failures of the fetch and their priority: `AccessFault(pc)`, then `DecodeError(op)`, then
`AccessFault` on `b1`, then on `b2`. -/
def Obligations.FetchFailuresComeInStepOrder : Prop :=
  ∀ s : State, s.halted = false →
    (inWindow s.window s.pc = false → step s = .fault (.accessFault s.pc)) ∧
    (∀ op, s.readByte s.pc = .ok op → decodeOp op = none → step s = .fault (.decodeError op)) ∧
    (∀ op t, s.readByte s.pc = .ok op → decodeOp op = some t → 2 ≤ t.len →
      inWindow s.window (s.pc + 1#16) = false → step s = .fault (.accessFault (s.pc + 1#16))) ∧
    (∀ op t, s.readByte s.pc = .ok op → decodeOp op = some t → t.len = 3 →
      inWindow s.window (s.pc + 1#16) = true → inWindow s.window (s.pc + 2#16) = false →
      step s = .fault (.accessFault (s.pc + 2#16)))

/-- R120, R262, R264: a `STEP` request that is not `ok` leaves every piece of state as it was, and the next one has the
same outcome. For a failure that is R262 and R264, for the halted reply R120. (That a stop of `step` carries no state is the
model's reading, log entry 3; that the halted condition is such a stop is log entry 2.) -/
def Obligations.FailingStepChangesNothing : Prop :=
  ∀ s : State, (serve .step s).1 ≠ .ok →
    (serve .step s).2 = s ∧ (serve .step (serve .step s).2).1 = (serve .step s).1

/-- R122, R260, R261: a step is never refused, and the only ways for it not to be `ok` are the halted condition, an
unrecognised byte at `pc`, and an access outside the window. (The halted outcome as a stop is log entry 2.) -/
def Obligations.StepFailsOnlyAsTheSpecSays : Prop :=
  ∀ s : State, (∀ r, step s ≠ .refused r) ∧
    ∀ f, step s = .fault f →
      (f = .halted ∧ s.halted = true) ∨
      (s.halted = false ∧ ∃ op, f = .decodeError op ∧ s.readByte s.pc = .ok op ∧ op.toNat ∈ unrecognisedBytes) ∨
      (s.halted = false ∧ ∃ addr, f = .accessFault addr ∧ inWindow s.window addr = false)

/-- R58, R62, R266: every one of the 53 instructions completes exactly when all the data and stack addresses it accesses
are inside the window; otherwise it fails with the first of them, in the order of R58, that is outside. -/
def Obligations.InstructionCompletesWhenItsAccessesAreInside : Prop :=
  ∀ (i : Instr) (s : State),
    ((∀ addr ∈ accesses i s, inWindow s.window addr = true) → ∃ t, exec i s = .next t) ∧
    (∀ (pre post : List Word) (addr : Word), accesses i s = pre ++ addr :: post →
      (∀ x ∈ pre, inWindow s.window x = true) → inWindow s.window addr = false →
      exec i s = .fault (.accessFault addr))

/-! ## What every instruction leaves alone -/

/-- R22: an instruction changes no register but those it writes. -/
def Obligations.InstructionsKeepOtherRegisters : Prop :=
  ∀ (i : Instr) (s t : State), exec i s = .next t → ∀ r, r ∉ registersWritten i → t.reg r = s.reg r

/-- R29: an instruction changes no flag but those the table gives it, and the logic instructions clear `CY`. -/
def Obligations.InstructionsKeepOtherFlags : Prop :=
  ∀ (i : Instr) (s t : State), exec i s = .next t →
    (∀ f, f ∉ flagsWritten i → t.flags.get f = s.flags.get f) ∧
    (∀ r, i = .ana r ∨ i = .ora r ∨ i = .xra r → t.flags.cy = false) ∧ (∀ v, i = .ani v → t.flags.cy = false) ∧
    (i = .cmc → t.flags.cy = !s.flags.cy)

/-- R58: an instruction changes no byte of memory but those the writes column of R58 gives it: every other address reads
as before, all of memory for an instruction that stores nothing. -/
def Obligations.InstructionsKeepOtherMemory : Prop :=
  ∀ (i : Instr) (s t : State), exec i s = .next t → SameMemoryExcept (storesTo i s) s t

/-- R25, R124: `pc` after an instruction that completed: the target of a taken jump or call, the popped value of `ret`,
otherwise `pc +_16 len`. -/
def Obligations.ProgramCounterAfterEveryInstruction : Prop :=
  ∀ (i : Instr) (s t : State), exec i s = .next t →
    (∀ a, (jumpTarget i = some a ∨ callTarget i = some a) → taken i s = true → t.pc = a) ∧
    (i = .ret → s.readWord s.sp = .ok t.pc) ∧
    ((jumpTarget i = none ∧ callTarget i = none ∧ i ≠ .ret) ∨ taken i s = false →
      t.pc = s.pc + BitVec.ofNat 16 i.len)

/-- R26: `SP` is loaded by `lxi sp`, falls by 2 on `push` and a call that transfers, rises by 2 on `pop` and `ret`, and
is left alone by everything else; the arithmetic wraps. -/
def Obligations.StackPointerAfterEveryInstruction : Prop :=
  ∀ (i : Instr) (s t : State), exec i s = .next t →
    t.sp = stackPointerAfter i s

/-- R31: no instruction but `hlt` writes `HALTED`, and `hlt` sets it. -/
def Obligations.OnlyHltWritesHalted : Prop :=
  ∀ (i : Instr) (s t : State), exec i s = .next t → t.halted = (s.halted || decide (i = .hlt))

/-- R29: nothing reads `AC`: two units that differ only in `AC` have the same outcome of a step and go on differing at
most in `AC`. -/
def Obligations.NoStepReadsAuxiliaryCarry : Prop :=
  ∀ (s : State) (b : Bool), SameButAc (step s) (step (withAc s b))

/-! ## Memory -/

/-- R51, R52, R53: an address is inside the window exactly when it is one of `MEM_BASE .. MEM_BASE + MEM_SIZE - 1`; an
access outside raises `AccessFault(addr)`, reads and writes alike; a read inside gives a byte. -/
def Obligations.AccessOutsideTheWindowFaults : Prop :=
  ∀ (s : State) (addr : Word) (v : Byte), s.window.Admissible →
    if s.window.base.toNat ≤ addr.toNat ∧ addr.toNat < s.window.base.toNat + s.window.size then
      (∃ b, s.readByte addr = .ok b) ∧ ∃ t, s.writeByte addr v = .ok t
    else s.readByte addr = .error (.accessFault addr) ∧ s.writeByte addr v = .error (.accessFault addr)

/-- R58: a read returns the last value written to that cell; a write changes that one cell and no other state. The last
clause, that memory is canonical again, is no rule of the spec: it is about the model's own form of memory, log entry 4. -/
def Obligations.ReadReturnsTheLastWrite : Prop :=
  ∀ (s t : State) (addr : Word) (v : Byte), Memory.wf s.mem → s.writeByte addr v = .ok t →
    t.readByte addr = .ok v ∧ SameMemoryExcept [addr] s t ∧ t = { s with mem := t.mem } ∧ Memory.wf t.mem

/-- R56, R57, R62: a 16-bit access is two byte accesses, the low byte at `addr`, the high byte at `addr +_16 1`; it raises
`AccessFault` with the first of the two that is outside (R56, R62), and then neither byte is written (R57; a failure carries
no state, log entry 3). -/
def Obligations.WordAccessIsTwoByteAccesses : Prop :=
  ∀ (s : State) (addr : Word) (v : Word), Memory.wf s.mem →
    (inWindow s.window addr = false →
      s.readWord addr = .error (.accessFault addr) ∧ s.writeWord addr v = .error (.accessFault addr)) ∧
    (inWindow s.window addr = true → inWindow s.window (addr + 1#16) = false →
      s.readWord addr = .error (.accessFault (addr + 1#16)) ∧
      s.writeWord addr v = .error (.accessFault (addr + 1#16))) ∧
    (inWindow s.window addr = true → inWindow s.window (addr + 1#16) = true →
      (∃ lo hi w, s.readByte addr = .ok lo ∧ s.readByte (addr + 1#16) = .ok hi ∧ s.readWord addr = .ok w ∧
        w.toNat = hi.toNat * 256 + lo.toNat) ∧
      ∃ t, s.writeWord addr v = .ok t ∧ t.readByte addr = .ok (BitVec.ofNat 8 (v.toNat % 256)) ∧
        t.readByte (addr + 1#16) = .ok (BitVec.ofNat 8 (v.toNat / 256)) ∧
        SameMemoryExcept [addr, addr + 1#16] s t ∧ t = { s with mem := t.mem })

/-- R65, R305: self-modifying code needs no barrier: when `sta` stores a one-byte instruction where the next fetch
takes place, the next step runs the stored instruction. -/
def Obligations.StoredInstructionRunsNext : Prop :=
  ∀ (s : State) (j : Instr), Memory.wf s.mem → s.halted = false →
    inWindow s.window (s.pc + 3#16) = true → encode j = [s.regs.a] →
    ∃ t, exec (.sta (s.pc + 3#16)) s = .next t ∧ step t = exec j t

/-! ## Data move -/

/-- R140, R141, R142, R149: `mov`, `mvi`, `lxi`, `xchg`: encoding and effect; they always complete. The rest of the state
is as before. -/
def Obligations.RegisterMovesComplete : Prop :=
  ∀ s : State,
    (∀ dst src, encode (.mov dst src) = [0b01#2 ++ dst.code ++ src.code] ∧
      exec (.mov dst src) s = .next { s with regs := s.regs.set dst (s.regs.get src), pc := s.pc + 1#16 }) ∧
    (∀ dst v, encode (.mvi dst v) = [0b00#2 ++ dst.code ++ 0b110#3, v] ∧
      exec (.mvi dst v) s = .next { s with regs := s.regs.set dst v, pc := s.pc + 2#16 }) ∧
    (∀ dst (b1 b2 : Byte), encode (.lxi dst (b2 ++ b1)) = [0b00#2 ++ dst.code ++ 0b0001#4, b1, b2] ∧
      exec (.lxi dst (b2 ++ b1)) s = .next (match dst with
        | .pair .bc => { s with regs := { s.regs with b := b2, c := b1 }, pc := s.pc + 3#16 }
        | .pair .de => { s with regs := { s.regs with d := b2, e := b1 }, pc := s.pc + 3#16 }
        | .pair .hl => { s with regs := { s.regs with h := b2, l := b1 }, pc := s.pc + 3#16 }
        | .sp => { s with sp := b2 ++ b1, pc := s.pc + 3#16 })) ∧
    (encode .xchg = [0xEB#8] ∧
      exec .xchg s = .next { s with
        regs := { s.regs with h := s.regs.d, d := s.regs.h, l := s.regs.e, e := s.regs.l }, pc := s.pc + 1#16 })

/-- R143, R145, R147: `lda`, `lhld`, `ldax`: the loaded bytes, or `AccessFault` of the first byte outside the window. -/
def Obligations.LoadsReadMemory : Prop :=
  ∀ s : State,
    (∀ a, encode (.lda a) = [0x3A#8, lo8 a, hi8 a] ∧
      (∀ v, s.readByte a = .ok v →
        exec (.lda a) s = .next { s with regs := { s.regs with a := v }, pc := s.pc + 3#16 }) ∧
      (inWindow s.window a = false → exec (.lda a) s = .fault (.accessFault a))) ∧
    (∀ a, encode (.lhld a) = [0x2A#8, lo8 a, hi8 a] ∧
      (∀ lo hi, s.readByte a = .ok lo → s.readByte (a + 1#16) = .ok hi →
        exec (.lhld a) s = .next { s with regs := { s.regs with l := lo, h := hi }, pc := s.pc + 3#16 }) ∧
      (inWindow s.window a = false → exec (.lhld a) s = .fault (.accessFault a)) ∧
      (inWindow s.window a = true → inWindow s.window (a + 1#16) = false →
        exec (.lhld a) s = .fault (.accessFault (a + 1#16)))) ∧
    (∀ (rp : PtrPair) (addr : Word),
      addr = (match rp with | .bc => s.regs.b ++ s.regs.c | .de => s.regs.d ++ s.regs.e) →
      encode (.ldax rp) = [0b00#2 ++ rp.code ++ 0b1010#4] ∧
      (∀ v, s.readByte addr = .ok v →
        exec (.ldax rp) s = .next { s with regs := { s.regs with a := v }, pc := s.pc + 1#16 }) ∧
      (inWindow s.window addr = false → exec (.ldax rp) s = .fault (.accessFault addr)))

/-- R144, R146, R148: `sta`, `shld`, `stax`: the stored bytes, every other byte as before, or `AccessFault` of the first
byte outside the window with nothing written. -/
def Obligations.StoresWriteMemory : Prop :=
  ∀ s : State, Memory.wf s.mem →
    (∀ a, encode (.sta a) = [0x32#8, lo8 a, hi8 a] ∧
      (inWindow s.window a = true → ∃ t, exec (.sta a) s = .next t ∧ t.readByte a = .ok s.regs.a ∧
        SameMemoryExcept [a] s t ∧ t = { s with mem := t.mem, pc := s.pc + 3#16 }) ∧
      (inWindow s.window a = false → exec (.sta a) s = .fault (.accessFault a))) ∧
    (∀ a, encode (.shld a) = [0x22#8, lo8 a, hi8 a] ∧
      (inWindow s.window a = true → inWindow s.window (a + 1#16) = true →
        ∃ t, exec (.shld a) s = .next t ∧ t.readByte a = .ok s.regs.l ∧ t.readByte (a + 1#16) = .ok s.regs.h ∧
          SameMemoryExcept [a, a + 1#16] s t ∧ t = { s with mem := t.mem, pc := s.pc + 3#16 }) ∧
      (inWindow s.window a = false → exec (.shld a) s = .fault (.accessFault a)) ∧
      (inWindow s.window a = true → inWindow s.window (a + 1#16) = false →
        exec (.shld a) s = .fault (.accessFault (a + 1#16)))) ∧
    (∀ (rp : PtrPair) (addr : Word),
      addr = (match rp with | .bc => s.regs.b ++ s.regs.c | .de => s.regs.d ++ s.regs.e) →
      encode (.stax rp) = [0b00#2 ++ rp.code ++ 0b0010#4] ∧
      (inWindow s.window addr = true → ∃ t, exec (.stax rp) s = .next t ∧ t.readByte addr = .ok s.regs.a ∧
        SameMemoryExcept [addr] s t ∧ t = { s with mem := t.mem, pc := s.pc + 1#16 }) ∧
      (inWindow s.window addr = false → exec (.stax rp) s = .fault (.accessFault addr)))

/-! ## Arithmetic, logic, rotate, compare -/

/-- R126, R127: the flag generator on any 9-bit raw result: sign is bit 7, zero, `AC` is `r8 > 9`, even parity, and carry
is `raw > 0xFF`. -/
def Obligations.FlagGeneratorGivesTheFiveFlags : Prop :=
  ∀ raw : BitVec 9, flagsOf raw = resultFlags (BitVec.ofNat 8 (raw.toNat % 256)) (decide (0xFF < raw.toNat))

/-- R160 to R163: `add`, `adc`, `adi`, `aci`: encoding and effect; they always complete. -/
def Obligations.AddFamilyComputesTheSum : Prop :=
  ∀ s : State,
    (∀ r, encode (.add r) = [0b10000#5 ++ r.code] ∧
      exec (.add r) s = .next (afterSum s (s.regs.get r) false 1#16)) ∧
    (∀ r, encode (.adc r) = [0b10001#5 ++ r.code] ∧
      exec (.adc r) s = .next (afterSum s (s.regs.get r) s.flags.cy 1#16)) ∧
    (∀ v, encode (.adi v) = [0xC6#8, v] ∧ exec (.adi v) s = .next (afterSum s v false 2#16)) ∧
    (∀ v, encode (.aci v) = [0xCE#8, v] ∧ exec (.aci v) s = .next (afterSum s v s.flags.cy 2#16))

/-- R164 to R166: `sub`, `sbb`, `sui`: encoding and effect; they always complete. -/
def Obligations.SubtractFamilyComputesTheDifference : Prop :=
  ∀ s : State,
    (∀ r, encode (.sub r) = [0b10010#5 ++ r.code] ∧
      exec (.sub r) s = .next (afterDifference s (s.regs.get r) false 1#16)) ∧
    (∀ r, encode (.sbb r) = [0b10011#5 ++ r.code] ∧
      exec (.sbb r) s = .next (afterDifference s (s.regs.get r) s.flags.cy 1#16)) ∧
    (∀ v, encode (.sui v) = [0xD6#8, v] ∧ exec (.sui v) s = .next (afterDifference s v false 2#16))

/-- R167, R168: `inr`, `dcr`: the register by one modulo 256, `S Z AC P` of the result, `CY` unchanged. -/
def Obligations.IncrementAndDecrementKeepCarry : Prop :=
  ∀ (s : State) (r : Reg) (up down : Byte),
    up = BitVec.ofNat 8 ((s.regs.get r).toNat + 1) → down = BitVec.ofNat 8 ((s.regs.get r).toNat + 255) →
    (encode (.inr r) = [0b00#2 ++ r.code ++ 0b100#3] ∧
      exec (.inr r) s = .next
        { s with regs := s.regs.set r up, flags := resultFlags up s.flags.cy, pc := s.pc + 1#16 }) ∧
    (encode (.dcr r) = [0b00#2 ++ r.code ++ 0b101#3] ∧
      exec (.dcr r) s = .next
        { s with regs := s.regs.set r down, flags := resultFlags down s.flags.cy, pc := s.pc + 1#16 })

/-- R180 to R183: `ana`, `ani`, `ora`, `xra`: the bitwise result in A, `S Z AC P` of it, `CY` cleared. -/
def Obligations.LogicFamilyClearsCarry : Prop :=
  ∀ s : State,
    (∀ r, encode (.ana r) = [0b10100#5 ++ r.code] ∧
      exec (.ana r) s = .next (afterLogic s (s.regs.a &&& s.regs.get r) 1#16)) ∧
    (∀ v, encode (.ani v) = [0xE6#8, v] ∧ exec (.ani v) s = .next (afterLogic s (s.regs.a &&& v) 2#16)) ∧
    (∀ r, encode (.ora r) = [0b10110#5 ++ r.code] ∧
      exec (.ora r) s = .next (afterLogic s (s.regs.a ||| s.regs.get r) 1#16)) ∧
    (∀ r, encode (.xra r) = [0b10101#5 ++ r.code] ∧
      exec (.xra r) s = .next (afterLogic s (s.regs.a ^^^ s.regs.get r) 1#16))

/-- R184, R185: `cma` takes A to `0xFF - A` and no flag changes; `cmc` complements `CY` and nothing else changes. -/
def Obligations.ComplementsTouchOneThing : Prop :=
  ∀ s : State,
    (encode .cma = [0x2F#8] ∧
      exec .cma s = .next
        { s with regs := { s.regs with a := BitVec.ofNat 8 (255 - s.regs.a.toNat) }, pc := s.pc + 1#16 }) ∧
    (encode .cmc = [0x3F#8] ∧
      exec .cmc s = .next { s with flags := { s.flags with cy := !s.flags.cy }, pc := s.pc + 1#16 })

/-- R190 to R193: the four rotates in numbers: A by one bit, `CY` the bit rotated out, `S Z AC P` unchanged. -/
def Obligations.RotatesMoveOneBit : Prop :=
  ∀ (s : State) (n : Nat), n = s.regs.a.toNat →
    (encode .rlc = [0x07#8] ∧ exec .rlc s = .next (afterRotate s (2 * n % 256 + n / 128) (decide (128 ≤ n)))) ∧
    (encode .rrc = [0x0F#8] ∧ exec .rrc s = .next (afterRotate s (n / 2 + n % 2 * 128) (decide (n % 2 = 1)))) ∧
    (encode .ral = [0x17#8] ∧
      exec .ral s = .next (afterRotate s (2 * n % 256 + carryIn s.flags.cy) (decide (128 ≤ n)))) ∧
    (encode .rar = [0x1F#8] ∧
      exec .rar s = .next (afterRotate s (n / 2 + carryIn s.flags.cy * 128) (decide (n % 2 = 1))))

/-- R190 to R193 (corner cases): eight circular rotates restore A, nine rotates through the carry restore A and `CY`. -/
def Obligations.FullTurnOfARotateRestores : Prop :=
  ∀ s : State,
    (∃ t, repeated .rlc 8 s = .next t ∧ t.regs = s.regs) ∧ (∃ t, repeated .rrc 8 s = .next t ∧ t.regs = s.regs) ∧
    (∃ t, repeated .ral 9 s = .next t ∧ t.regs = s.regs ∧ t.flags = s.flags) ∧
    (∃ t, repeated .rar 9 s = .next t ∧ t.regs = s.regs ∧ t.flags = s.flags)

/-- R200, R201: `cmp`, `cpi`: the five flags of `A - operand`; A and everything else unchanged but `pc`. -/
def Obligations.ComparesSetFlagsOnly : Prop :=
  ∀ s : State,
    (∀ r, encode (.cmp r) = [0b10111#5 ++ r.code] ∧
      exec (.cmp r) s = .next
        { s with flags := differenceFlags s.regs.a (s.regs.get r) false, pc := s.pc + 1#16 }) ∧
    (∀ v, encode (.cpi v) = [0xFE#8, v] ∧
      exec (.cpi v) s = .next { s with flags := differenceFlags s.regs.a v false, pc := s.pc + 2#16 })

/-- R129, R200, R201: after any instruction that computes a result's flags, `Z` excludes `S` and `AC` and implies `P`, and
`S` implies `AC`; after either compare `Z` says equal and `CY` says below. -/
def Obligations.FlagsAreConsistentAfterAResult : Prop :=
  ∀ (i : Instr) (s t : State), FlagName.z ∈ flagsWritten i → exec i s = .next t →
    (t.flags.z = true → t.flags.s = false ∧ t.flags.ac = false ∧ t.flags.p = true) ∧
    (t.flags.s = true → t.flags.ac = true) ∧
    (∀ r, i = .cmp r → (t.flags.z = true ↔ s.reg .a = s.reg r) ∧
      (t.flags.cy = true ↔ (s.reg .a).toNat < (s.reg r).toNat)) ∧
    (∀ v, i = .cpi v → (t.flags.z = true ↔ s.reg .a = v) ∧ (t.flags.cy = true ↔ (s.reg .a).toNat < v.toNat))

/-- R130: the same register as source and destination. -/
def Obligations.SameRegisterAsBothOperands : Prop :=
  ∀ s : State,
    exec (.mov .a .a) s = .next { s with pc := s.pc + 1#16 } ∧
    (∃ t, exec (.add .a) s = .next t ∧ (t.reg .a).toNat = 2 * (s.reg .a).toNat % 256) ∧
    exec (.sub .a) s = .next { s with
      regs := { s.regs with a := 0x00#8 },
      flags := { s := false, z := true, ac := false, p := true, cy := false }, pc := s.pc + 1#16 } ∧
    exec (.xra .a) s = .next { s with
      regs := { s.regs with a := 0x00#8 },
      flags := { s := false, z := true, ac := false, p := true, cy := false }, pc := s.pc + 1#16 } ∧
    exec (.cmp .a) s = .next { s with
      flags := { s := false, z := true, ac := false, p := true, cy := false }, pc := s.pc + 1#16 } ∧
    exec (.ana .a) s = .next { s with flags := resultFlags s.regs.a false, pc := s.pc + 1#16 } ∧
    exec (.ora .a) s = .next { s with flags := resultFlags s.regs.a false, pc := s.pc + 1#16 } ∧
    ∃ t, exec (.sbb .a) s = .next t ∧ t.reg .a = (if s.flags.cy then 0xFF#8 else 0x00#8) ∧
      t.flags.cy = s.flags.cy

/-! ## Control transfer, stack, halt -/

/-- R85: what each condition tests. -/
def Obligations.ConditionsTestOneFlag : Prop :=
  ∀ f : Flags,
    (Cond.holds f .nz = true ↔ f.z = false) ∧ (Cond.holds f .z = true ↔ f.z = true) ∧
    (Cond.holds f .nc = true ↔ f.cy = false) ∧ (Cond.holds f .c = true ↔ f.cy = true) ∧
    (Cond.holds f .po = true ↔ f.p = false) ∧ (Cond.holds f .pe = true ↔ f.p = true) ∧
    (Cond.holds f .p = true ↔ f.s = false) ∧ (Cond.holds f .m = true ↔ f.s = true) ∧
    Cond.nz.code = 0b000#3 ∧ Cond.z.code = 0b001#3 ∧ Cond.nc.code = 0b010#3 ∧ Cond.c.code = 0b011#3 ∧
    Cond.po.code = 0b100#3 ∧ Cond.pe.code = 0b101#3 ∧ Cond.p.code = 0b110#3 ∧ Cond.m.code = 0b111#3

/-- R211 to R219: `jmp` and the eight conditional jumps: encoding and effect; only `pc` changes; the target is not
checked, so they always complete. -/
def Obligations.JumpsWriteOnlyThePc : Prop :=
  ∀ (s : State) (a : Word),
    (encode (.jmp a) = [0xC3#8, lo8 a, hi8 a] ∧ exec (.jmp a) s = .next { s with pc := a }) ∧
    (encode (.jnz a) = [0xC2#8, lo8 a, hi8 a] ∧
      exec (.jnz a) s = .next { s with pc := if s.flags.z = false then a else s.pc + 3#16 }) ∧
    (encode (.jz a) = [0xCA#8, lo8 a, hi8 a] ∧
      exec (.jz a) s = .next { s with pc := if s.flags.z = true then a else s.pc + 3#16 }) ∧
    (encode (.jnc a) = [0xD2#8, lo8 a, hi8 a] ∧
      exec (.jnc a) s = .next { s with pc := if s.flags.cy = false then a else s.pc + 3#16 }) ∧
    (encode (.jc a) = [0xDA#8, lo8 a, hi8 a] ∧
      exec (.jc a) s = .next { s with pc := if s.flags.cy = true then a else s.pc + 3#16 }) ∧
    (encode (.jpo a) = [0xE2#8, lo8 a, hi8 a] ∧
      exec (.jpo a) s = .next { s with pc := if s.flags.p = false then a else s.pc + 3#16 }) ∧
    (encode (.jpe a) = [0xEA#8, lo8 a, hi8 a] ∧
      exec (.jpe a) s = .next { s with pc := if s.flags.p = true then a else s.pc + 3#16 }) ∧
    (encode (.jp a) = [0xF2#8, lo8 a, hi8 a] ∧
      exec (.jp a) s = .next { s with pc := if s.flags.s = false then a else s.pc + 3#16 }) ∧
    (encode (.jm a) = [0xFA#8, lo8 a, hi8 a] ∧
      exec (.jm a) s = .next { s with pc := if s.flags.s = true then a else s.pc + 3#16 })

/-- R220 to R229: `call` and the eight conditional calls. One that transfers pushes `pc +_16 3`, high byte at `SP -_16 1`
and low byte at `SP -_16 2`, lowers `SP` by 2 and goes to the target; a stack byte outside the window fails it, the one
at `SP -_16 1` first; one whose condition is false only advances `pc` by 3 and does not touch the stack. -/
def Obligations.CallsPushTheReturnAddress : Prop :=
  ∀ (s : State) (a : Word), Memory.wf s.mem →
    ∀ form ∈ callForms a s.flags,
      encode form.1 = [form.2.1, lo8 a, hi8 a] ∧
      (form.2.2 = false → exec form.1 s = .next { s with pc := s.pc + 3#16 }) ∧
      (form.2.2 = true → inWindow s.window (s.sp - 1#16) = true → inWindow s.window (s.sp - 2#16) = true →
        ∃ t, exec form.1 s = .next t ∧
          t.readByte (s.sp - 1#16) = .ok (BitVec.ofNat 8 ((s.pc + 3#16).toNat / 256)) ∧
          t.readByte (s.sp - 2#16) = .ok (BitVec.ofNat 8 ((s.pc + 3#16).toNat % 256)) ∧
          SameMemoryExcept [s.sp - 1#16, s.sp - 2#16] s t ∧
          t = { s with mem := t.mem, sp := s.sp - 2#16, pc := a }) ∧
      (form.2.2 = true → inWindow s.window (s.sp - 1#16) = false →
        exec form.1 s = .fault (.accessFault (s.sp - 1#16))) ∧
      (form.2.2 = true → inWindow s.window (s.sp - 1#16) = true → inWindow s.window (s.sp - 2#16) = false →
        exec form.1 s = .fault (.accessFault (s.sp - 2#16)))

/-- R230: `ret`. -/
def Obligations.RetPopsThePc : Prop :=
  ∀ s : State, encode .ret = [0xC9#8] ∧
    (∀ lo hi : Byte, s.readByte s.sp = .ok lo → s.readByte (s.sp + 1#16) = .ok hi →
      exec .ret s = .next { s with pc := hi ++ lo, sp := s.sp + 2#16 }) ∧
    (inWindow s.window s.sp = false → exec .ret s = .fault (.accessFault s.sp)) ∧
    (inWindow s.window s.sp = true → inWindow s.window (s.sp + 1#16) = false →
      exec .ret s = .fault (.accessFault (s.sp + 1#16)))

/-- R220, R230, R242: a `ret` right after a call that transferred resumes one instruction past the call, with `SP` back
where it was, registers and flags untouched. -/
def Obligations.RetUndoesCall : Prop :=
  ∀ (s : State) (a : Word), Memory.wf s.mem →
    inWindow s.window (s.sp - 1#16) = true → inWindow s.window (s.sp - 2#16) = true →
    ∃ t u, exec (.call a) s = .next t ∧ exec .ret t = .next u ∧ u.pc = s.pc + 3#16 ∧ u.sp = s.sp ∧
      u.regs = s.regs ∧ u.flags = s.flags ∧ SameMemoryExcept [s.sp - 1#16, s.sp - 2#16] s u

/-- R240: `push rp`, with the two registers of the pair named. -/
def Obligations.PushStoresThePair : Prop :=
  ∀ (s : State) (rp : Pair) (hi lo : Reg), Memory.wf s.mem →
    (rp, hi, lo) ∈ [(Pair.bc, Reg.b, Reg.c), (.de, .d, .e), (.hl, .h, .l)] →
    encode (.push rp) = [0b11#2 ++ rp.code ++ 0b0101#4] ∧
    (inWindow s.window (s.sp - 1#16) = true → inWindow s.window (s.sp - 2#16) = true →
      ∃ t, exec (.push rp) s = .next t ∧ t.readByte (s.sp - 1#16) = .ok (s.reg hi) ∧
        t.readByte (s.sp - 2#16) = .ok (s.reg lo) ∧ SameMemoryExcept [s.sp - 1#16, s.sp - 2#16] s t ∧
        t = { s with mem := t.mem, sp := s.sp - 2#16, pc := s.pc + 1#16 }) ∧
    (inWindow s.window (s.sp - 1#16) = false → exec (.push rp) s = .fault (.accessFault (s.sp - 1#16))) ∧
    (inWindow s.window (s.sp - 1#16) = true → inWindow s.window (s.sp - 2#16) = false →
      exec (.push rp) s = .fault (.accessFault (s.sp - 2#16)))

/-- R241: `pop rp`, with the two registers of the pair named. -/
def Obligations.PopLoadsThePair : Prop :=
  ∀ (s : State) (rp : Pair) (hi lo : Reg),
    (rp, hi, lo) ∈ [(Pair.bc, Reg.b, Reg.c), (.de, .d, .e), (.hl, .h, .l)] →
    encode (.pop rp) = [0b11#2 ++ rp.code ++ 0b0001#4] ∧
    (∀ vlo vhi, s.readByte s.sp = .ok vlo → s.readByte (s.sp + 1#16) = .ok vhi →
      exec (.pop rp) s = .next
        { s with regs := (s.regs.set lo vlo).set hi vhi, sp := s.sp + 2#16, pc := s.pc + 1#16 }) ∧
    (inWindow s.window s.sp = false → exec (.pop rp) s = .fault (.accessFault s.sp)) ∧
    (inWindow s.window s.sp = true → inWindow s.window (s.sp + 1#16) = false →
      exec (.pop rp) s = .fault (.accessFault (s.sp + 1#16)))

/-- R242: `push` then `pop` of any pairs moves the first pair's value to the second and restores `SP`; `push` then `ret`
jumps to the address in the pair; `call` then `pop` reads the return address into the pair. -/
def Obligations.StackItemsMoveBetweenPairsAndPc : Prop :=
  ∀ s : State, Memory.wf s.mem →
    inWindow s.window (s.sp - 1#16) = true → inWindow s.window (s.sp - 2#16) = true →
    (∀ rp rq, ∃ t u, exec (.push rp) s = .next t ∧ exec (.pop rq) t = .next u ∧ u.pair rq = s.pair rp ∧
      u.sp = s.sp) ∧
    (∀ rp, ∃ t u, exec (.push rp) s = .next t ∧ exec .ret t = .next u ∧ u.pc = s.pair rp ∧ u.sp = s.sp) ∧
    (∀ a rq, ∃ t u, exec (.call a) s = .next t ∧ exec (.pop rq) t = .next u ∧ u.pair rq = s.pc + 3#16 ∧
      u.sp = s.sp)

/-- R250: `hlt`; the step after it has outcome `halted` and changes nothing. -/
def Obligations.HltSetsHalted : Prop :=
  ∀ s t : State, t = { s with halted := true, pc := s.pc + 1#16 } →
    encode .hlt = [0x76#8] ∧ exec .hlt s = .next t ∧ serve .step t = (.halted, t)

/-! ## The host port -/

/-- R299, R300: `POKE` overwrites the one register or cell it names, with the value modulo 256, and changes nothing else
(no flag, not `pc`, not `SP`, not `HALTED`), halted or not; outside the window it is refused and changes nothing. R299
names no index: the two clauses on a window index (below `MEM_SIZE` it is the address `MEM_BASE + i`, from `MEM_SIZE` on it is
refused) are the model's reading, log entry 9. -/
def Obligations.PokeChangesOneRegisterOrCell : Prop :=
  ∀ (s : State) (v : Nat), s.window.Admissible → Memory.wf s.mem →
    (∀ r, serve (.poke (.reg r) v) s = (.ok, { s with regs := s.regs.set r (BitVec.ofNat 8 (v % 256)) })) ∧
    (∀ addr, inWindow s.window addr = true →
      ∃ t, serve (.poke (.cell (.address addr)) v) s = (.ok, t) ∧ t.readByte addr = .ok (BitVec.ofNat 8 (v % 256)) ∧
        SameMemoryExcept [addr] s t ∧ t = { s with mem := t.mem }) ∧
    (∀ i, i < s.window.size →
      serve (.poke (.cell (.index i)) v) s =
        serve (.poke (.cell (.address (s.window.base + BitVec.ofNat 16 i))) v) s ∧
      inWindow s.window (s.window.base + BitVec.ofNat 16 i) = true) ∧
    (∀ addr, inWindow s.window addr = false →
      serve (.poke (.cell (.address addr)) v) s = (.refused .outsideWindow, s)) ∧
    (∀ i, s.window.size ≤ i → serve (.poke (.cell (.index i)) v) s = (.refused .outsideWindow, s))

/-- R298: `PEEK` reads registers, flags, `pc`, `SP`, `HALTED` and the cells of the window, and changes nothing. R298 refuses
an address outside the window and is silent on an index of `MEM_SIZE` or more: that it is refused too, the last clause, is
the model's reading, log entry 9. -/
def Obligations.PeekReadsAndChangesNothing : Prop :=
  ∀ s : State,
    (∀ target, (serve (.peek target) s).2 = s) ∧
    (∀ r, (serve (.peek (.reg r)) s).1 = .byte (s.reg r)) ∧
    (∀ f, (serve (.peek (.flag f)) s).1 = .bit (s.flags.get f)) ∧
    (serve (.peek .pc) s).1 = .word s.pc ∧ (serve (.peek .sp) s).1 = .word s.sp ∧
    (serve (.peek .halted) s).1 = .bit s.halted ∧
    (∀ addr v, s.readByte addr = .ok v → (serve (.peek (.cell (.address addr))) s).1 = .byte v) ∧
    (∀ i v, i < s.window.size → s.readByte (s.window.base + BitVec.ofNat 16 i) = .ok v →
      (serve (.peek (.cell (.index i))) s).1 = .byte v) ∧
    (∀ addr, inWindow s.window addr = false →
      (serve (.peek (.cell (.address addr))) s).1 = .refused .outsideWindow) ∧
    (∀ i, s.window.size ≤ i → (serve (.peek (.cell (.index i))) s).1 = .refused .outsideWindow)

/-- R300: the host changes a flag, `pc`, `SP` or `HALTED` only through `RESET`, `LOAD` or the core's own `STEP`, and
never the window (`MEM_BASE`, `MEM_SIZE`; that they stand in the state is log entry 1). -/
def Obligations.HostWritesNoFlagPcSpOrHalted : Prop :=
  ∀ (r : Request) (s : State), (serve r s).2.window = s.window ∧
    ((serve r s).2.flags ≠ s.flags ∨ (serve r s).2.pc ≠ s.pc ∨ (serve r s).2.sp ≠ s.sp ∨
        (serve r s).2.halted ≠ s.halted →
      r = .reset ∨ r = .step ∨ ∃ image, r = .load image)

/-- R33, R35, R296: every request keeps the invariant and the window, from every state that satisfies the invariant,
reached from a `RESET` or not. (The window as a field is log entry 1, the canonical form log entry 4, the refusal of a `LOAD`
of the wrong length log entry 8.) -/
def Obligations.EveryRequestKeepsInvariant : Prop :=
  ∀ (r : Request) (s : State), s.Inv → (serve r s).2.Inv ∧ (serve r s).2.window = s.window
end

