-- ==== Sys2Proof/Laws/Decode.lean ====
section
/-! SUPPORT. What the decoder answers for each of the three lengths, given what the opcode byte selects. -/

namespace Sys2Proof

theorem decode_complete {op : Byte} {i : Instr} (h : decodeOp op = some (.complete i)) (rest : List Byte) :
    decode (op :: rest) = .ok (i, rest) := by simp only [decode, h]

theorem decode_imm8 {op : Byte} {mk : Byte → Instr} (h : decodeOp op = some (.imm8 mk)) (b1 : Byte)
    (rest : List Byte) : decode (op :: b1 :: rest) = .ok (mk b1, rest) := by simp only [decode, h]

theorem decode_imm16 {op : Byte} {mk : Word → Instr} (h : decodeOp op = some (.imm16 mk)) (b1 b2 : Byte)
    (rest : List Byte) : decode (op :: b1 :: b2 :: rest) = .ok (mk (wordOf b2 b1), rest) := by simp only [decode, h]

end Sys2Proof
end

