-- ==== Sys2Proof/Laws/Memory.lean ====
section
/-! SUPPORT. Memory as data: read after write, the canonical form is kept, equal reads are equal memories. -/

namespace Sys2Proof.Machine

@[simp] theorem Memory.read_nil (k : Nat) : Memory.read [] k = unlistedByte := rfl

theorem Memory.wf_nil : Memory.wf [] := ⟨List.Pairwise.nil, by simp⟩

theorem Memory.wf_tail {c : Host.Cell} {m : Memory} (h : Memory.wf (c :: m)) : Memory.wf m :=
  ⟨(List.pairwise_cons.1 h.1).2, fun d hd => h.2 d (List.mem_cons_of_mem _ hd)⟩

theorem Memory.wf_head_lt {c d : Host.Cell} {m : Memory} (h : Memory.wf (c :: m)) (hd : d ∈ m) : c.1 < d.1 :=
  (List.pairwise_cons.1 h.1).1 d hd

theorem Memory.wf_cons {c : Host.Cell} {m : Memory} (hc : c.2 ≠ unlistedByte) (hlt : ∀ d ∈ m, c.1 < d.1)
    (h : Memory.wf m) : Memory.wf (c :: m) :=
  ⟨List.pairwise_cons.2 ⟨hlt, h.1⟩, fun d hd => by
    rcases List.mem_cons.1 hd with rfl | hd
    · exact hc
    · exact h.2 d hd⟩

/-- An address that no cell lists reads as the unlisted byte. -/
theorem Memory.read_unlisted {m : Memory} {k : Nat} (h : ∀ c ∈ m, c.1 ≠ k) : Memory.read m k = unlistedByte := by
  induction m with
  | nil => rfl
  | cons c m ih =>
    simp only [Memory.read, if_neg (h c (by simp))]
    exact ih fun d hd => h d (List.mem_cons_of_mem _ hd)

/-- A listed cell is what its address reads as. -/
theorem Memory.read_listed {m : Memory} (hw : Memory.wf m) {c : Host.Cell} (hc : c ∈ m) :
    Memory.read m c.1 = c.2 := by
  induction m with
  | nil => cases hc
  | cons d m ih =>
    rcases List.mem_cons.1 hc with rfl | hc
    · simp [Memory.read]
    · have := Memory.wf_head_lt hw hc
      simp only [Memory.read, if_neg (show ¬ d.1 = c.1 by omega)]
      exact ih (Memory.wf_tail hw) hc

theorem Memory.mem_cell {k : Nat} {v : Byte} {m : Memory} {c : Host.Cell} (h : c ∈ Memory.cell k v m) :
    c = (k, v) ∨ c ∈ m := by
  unfold Memory.cell at h
  split at h
  · exact .inr h
  · exact List.mem_cons.1 h

/-- Every cell after a write is the written one or was there before. -/
theorem Memory.mem_write {m : Memory} {k : Nat} {v : Byte} {c : Host.Cell} (h : c ∈ Memory.write m k v) :
    c = (k, v) ∨ c ∈ m := by
  induction m with
  | nil => exact Memory.mem_cell h
  | cons d m ih =>
    simp only [Memory.write] at h
    split at h
    · exact Memory.mem_cell h
    · split at h
      · exact (Memory.mem_cell h).imp_right (List.mem_cons_of_mem _)
      · rcases List.mem_cons.1 h with rfl | h
        · simp
        · exact (ih h).imp_right (List.mem_cons_of_mem _)

theorem Memory.wf_cell {k : Nat} {v : Byte} {m : Memory} (hlt : ∀ d ∈ m, k < d.1) (h : Memory.wf m) :
    Memory.wf (Memory.cell k v m) := by
  unfold Memory.cell
  split
  · exact h
  · exact Memory.wf_cons ‹_› hlt h

/-- A write keeps the canonical form. -/
theorem Memory.wf_write {m : Memory} (h : Memory.wf m) (k : Nat) (v : Byte) : Memory.wf (Memory.write m k v) := by
  induction m with
  | nil => exact Memory.wf_cell (by simp) h
  | cons d m ih =>
    simp only [Memory.write]
    split
    · refine Memory.wf_cell (fun c hc => ?_) h
      rcases List.mem_cons.1 hc with rfl | hc
      · assumption
      · exact Nat.lt_trans ‹_› (Memory.wf_head_lt h hc)
    · split
      · exact Memory.wf_cell (fun c hc => ‹k = d.1› ▸ Memory.wf_head_lt h hc) (Memory.wf_tail h)
      · refine Memory.wf_cons (h.2 d (by simp)) (fun c hc => ?_) (ih (Memory.wf_tail h))
        rcases Memory.mem_write hc with rfl | hc
        · show d.1 < k; omega
        · exact Memory.wf_head_lt h hc

theorem Memory.read_cell {k : Nat} {v : Byte} {m : Memory} (hlt : ∀ d ∈ m, k < d.1) (j : Nat) :
    Memory.read (Memory.cell k v m) j = if k = j then v else Memory.read m j := by
  unfold Memory.cell
  split
  · split
    · rw [Memory.read_unlisted fun c hc => by have := hlt c hc; omega]; exact ‹v = _›.symm
    · rfl
  · rfl

/-- Read after write: the written byte at its address, every other address as before. -/
theorem Memory.read_write {m : Memory} (h : Memory.wf m) (k : Nat) (v : Byte) (j : Nat) :
    Memory.read (Memory.write m k v) j = if k = j then v else Memory.read m j := by
  induction m with
  | nil => exact Memory.read_cell (by simp) j
  | cons d m ih =>
    simp only [Memory.write]
    split
    · refine Memory.read_cell (fun c hc => ?_) j
      rcases List.mem_cons.1 hc with rfl | hc
      · assumption
      · exact Nat.lt_trans ‹_› (Memory.wf_head_lt h hc)
    · split
      · subst k
        rw [Memory.read_cell fun c hc => Memory.wf_head_lt h hc]
        simp only [Memory.read]
        split <;> rfl
      · simp only [Memory.read, ih (Memory.wf_tail h)]
        split
        · split
          · omega
          · rfl
        · rfl

/-- A write leaves every other address alone, canonical form or not. -/
theorem Memory.read_write_ne (m : Memory) {k j : Nat} (v : Byte) (h : k ≠ j) :
    Memory.read (Memory.write m k v) j = Memory.read m j := by
  have cell : ∀ n : Memory, Memory.read (Memory.cell k v n) j = Memory.read n j := fun n => by
    unfold Memory.cell
    split
    · rfl
    · simp only [Memory.read, if_neg h]
  induction m with
  | nil => exact cell []
  | cons c m ih =>
    simp only [Memory.write]
    split
    · exact cell _
    · split
      · rw [cell m]
        simp only [Memory.read, if_neg (show ¬ c.1 = j by omega)]
      · simp only [Memory.read, ih]

theorem Memory.read_write_same {m : Memory} (h : Memory.wf m) (k : Nat) (v : Byte) :
    Memory.read (Memory.write m k v) k = v := by rw [Memory.read_write h, if_pos rfl]

/-- Two memories in canonical form that read alike are the same list. -/
theorem Memory.ext_of_read {m n : Memory} (hm : Memory.wf m) (hn : Memory.wf n)
    (h : ∀ k, Memory.read m k = Memory.read n k) : m = n := by
  induction m generalizing n with
  | nil =>
    cases n with
    | nil => rfl
    | cons d n => exact absurd ((h d.1).trans (Memory.read_listed hn (by simp))).symm (hn.2 d (by simp))
  | cons c m ih =>
    cases n with
    | nil => exact absurd (Memory.read_listed hm (c := c) (by simp) ▸ h c.1) (hm.2 c (by simp))
    | cons d n =>
      have key : ∀ {x y : Host.Cell} {p q : Memory}, Memory.wf (x :: p) → Memory.wf (y :: q) →
          (∀ k, Memory.read (x :: p) k = Memory.read (y :: q) k) → y.1 ≤ x.1 := by
        intro x y p q hx hy hr
        refine Nat.le_of_not_lt fun hlt => hx.2 x (by simp) ?_
        rw [← Memory.read_listed hx (c := x) (by simp), hr]
        refine Memory.read_unlisted fun z hz => ?_
        rcases List.mem_cons.1 hz with rfl | hz
        · omega
        · have := Memory.wf_head_lt hy hz; omega
      have hk : c.1 = d.1 := Nat.le_antisymm (key hn hm fun k => (h k).symm) (key hm hn h)
      have hv : c.2 = d.2 := by
        rw [← Memory.read_listed hm (c := c) (by simp), ← Memory.read_listed hn (c := d) (by simp), h, hk]
      have hc : c = d := Prod.ext hk hv
      subst hc
      congr 1
      refine ih (Memory.wf_tail hm) (Memory.wf_tail hn) fun k => ?_
      by_cases hkc : c.1 = k
      · rw [Memory.read_unlisted fun z hz => by have := Memory.wf_head_lt hm hz; omega,
          Memory.read_unlisted fun z hz => by have := Memory.wf_head_lt hn hz; omega]
      · have := h k
        simpa only [Memory.read, if_neg hkc] using this

/-- Every cell of an image lies in the addresses it was loaded to. -/
theorem Memory.mem_ofImage {base : Nat} {image : List Byte} {c : Host.Cell} (h : c ∈ Memory.ofImage base image) :
    base ≤ c.1 ∧ c.1 < base + image.length := by
  induction image generalizing base with
  | nil => cases h
  | cons v image ih =>
    rcases Memory.mem_cell h with rfl | h
    · simp
    · have := ih h
      simp only [List.length_cons]
      omega

/-- A loaded image is in canonical form. -/
theorem Memory.wf_ofImage (base : Nat) (image : List Byte) : Memory.wf (Memory.ofImage base image) := by
  induction image generalizing base with
  | nil => exact Memory.wf_nil
  | cons v image ih => exact Memory.wf_cell (fun d hd => by have := Memory.mem_ofImage hd; omega) (ih _)

/-- Cell `i` of a loaded image reads as `image[i]`. -/
theorem Memory.read_ofImage (base : Nat) (image : List Byte) (i : Nat) (h : i < image.length) :
    Memory.read (Memory.ofImage base image) (base + i) = image[i] := by
  induction image generalizing base i with
  | nil => cases h
  | cons v image ih =>
    rw [Memory.ofImage, Memory.read_cell fun d hd => by have := Memory.mem_ofImage hd; omega]
    cases i with
    | zero => simp
    | succ i =>
      rw [if_neg (by omega), show base + (i + 1) = base + 1 + i by omega]
      exact ih _ i (by simpa using h)

end Sys2Proof.Machine
end

