-- ==== Sys2Proof/Laws/State.lean ====
section
/-! SUPPORT. The simp set of the state: one lemma per field per update, and what an operand reads after a write. -/

namespace Sys2Proof.Machine

/-! ### `advance` -/

@[simp] theorem State.advance_regs (s : State) (n : Word) : (s.advance n).regs = s.regs := rfl
@[simp] theorem State.advance_flags (s : State) (n : Word) : (s.advance n).flags = s.flags := rfl
@[simp] theorem State.advance_pc (s : State) (n : Word) : (s.advance n).pc = s.pc + n := rfl
@[simp] theorem State.advance_sp (s : State) (n : Word) : (s.advance n).sp = s.sp := rfl
@[simp] theorem State.advance_halted (s : State) (n : Word) : (s.advance n).halted = s.halted := rfl
@[simp] theorem State.advance_mem (s : State) (n : Word) : (s.advance n).mem = s.mem := rfl
@[simp] theorem State.advance_window (s : State) (n : Word) : (s.advance n).window = s.window := rfl

/-! ### `jumpTo` -/

@[simp] theorem State.jumpTo_regs (s : State) (a : Word) : (s.jumpTo a).regs = s.regs := rfl
@[simp] theorem State.jumpTo_flags (s : State) (a : Word) : (s.jumpTo a).flags = s.flags := rfl
@[simp] theorem State.jumpTo_pc (s : State) (a : Word) : (s.jumpTo a).pc = a := rfl
@[simp] theorem State.jumpTo_sp (s : State) (a : Word) : (s.jumpTo a).sp = s.sp := rfl
@[simp] theorem State.jumpTo_halted (s : State) (a : Word) : (s.jumpTo a).halted = s.halted := rfl
@[simp] theorem State.jumpTo_mem (s : State) (a : Word) : (s.jumpTo a).mem = s.mem := rfl
@[simp] theorem State.jumpTo_window (s : State) (a : Word) : (s.jumpTo a).window = s.window := rfl

/-! ### `setFlags` -/

@[simp] theorem State.setFlags_regs (s : State) (f : Flags) : (s.setFlags f).regs = s.regs := rfl
@[simp] theorem State.setFlags_flags (s : State) (f : Flags) : (s.setFlags f).flags = f := rfl
@[simp] theorem State.setFlags_pc (s : State) (f : Flags) : (s.setFlags f).pc = s.pc := rfl
@[simp] theorem State.setFlags_sp (s : State) (f : Flags) : (s.setFlags f).sp = s.sp := rfl
@[simp] theorem State.setFlags_halted (s : State) (f : Flags) : (s.setFlags f).halted = s.halted := rfl
@[simp] theorem State.setFlags_mem (s : State) (f : Flags) : (s.setFlags f).mem = s.mem := rfl
@[simp] theorem State.setFlags_window (s : State) (f : Flags) : (s.setFlags f).window = s.window := rfl

/-! ### `halt` -/

@[simp] theorem State.halt_regs (s : State) : s.halt.regs = s.regs := rfl
@[simp] theorem State.halt_flags (s : State) : s.halt.flags = s.flags := rfl
@[simp] theorem State.halt_pc (s : State) : s.halt.pc = s.pc := rfl
@[simp] theorem State.halt_sp (s : State) : s.halt.sp = s.sp := rfl
@[simp] theorem State.halt_halted (s : State) : s.halt.halted = true := rfl
@[simp] theorem State.halt_mem (s : State) : s.halt.mem = s.mem := rfl
@[simp] theorem State.halt_window (s : State) : s.halt.window = s.window := rfl

/-! ### `setReg` -/

@[simp] theorem State.setReg_regs (s : State) (r : Reg) (v : Byte) : (s.setReg r v).regs = s.regs.set r v := rfl
@[simp] theorem State.setReg_flags (s : State) (r : Reg) (v : Byte) : (s.setReg r v).flags = s.flags := rfl
@[simp] theorem State.setReg_pc (s : State) (r : Reg) (v : Byte) : (s.setReg r v).pc = s.pc := rfl
@[simp] theorem State.setReg_sp (s : State) (r : Reg) (v : Byte) : (s.setReg r v).sp = s.sp := rfl
@[simp] theorem State.setReg_halted (s : State) (r : Reg) (v : Byte) : (s.setReg r v).halted = s.halted := rfl
@[simp] theorem State.setReg_mem (s : State) (r : Reg) (v : Byte) : (s.setReg r v).mem = s.mem := rfl
@[simp] theorem State.setReg_window (s : State) (r : Reg) (v : Byte) : (s.setReg r v).window = s.window := rfl

/-! ### `setPair` -/

@[simp] theorem State.setPair_regs (s : State) (rp : Pair) (v : Word) : (s.setPair rp v).regs = s.regs.setPair rp v := rfl
@[simp] theorem State.setPair_flags (s : State) (rp : Pair) (v : Word) : (s.setPair rp v).flags = s.flags := rfl
@[simp] theorem State.setPair_pc (s : State) (rp : Pair) (v : Word) : (s.setPair rp v).pc = s.pc := rfl
@[simp] theorem State.setPair_sp (s : State) (rp : Pair) (v : Word) : (s.setPair rp v).sp = s.sp := rfl
@[simp] theorem State.setPair_halted (s : State) (rp : Pair) (v : Word) : (s.setPair rp v).halted = s.halted := rfl
@[simp] theorem State.setPair_mem (s : State) (rp : Pair) (v : Word) : (s.setPair rp v).mem = s.mem := rfl
@[simp] theorem State.setPair_window (s : State) (rp : Pair) (v : Word) : (s.setPair rp v).window = s.window := rfl

/-! ### `setLxiDest` -/

@[simp] theorem State.setLxiDest_pair (s : State) (rp : Pair) (v : Word) :
    s.setLxiDest (.pair rp) v = s.setPair rp v := rfl
@[simp] theorem State.setLxiDest_sp (s : State) (v : Word) : s.setLxiDest .sp v = { s with sp := v } := rfl
@[simp] theorem State.setLxiDest_flags (s : State) (dst : LxiDest) (v : Word) : (s.setLxiDest dst v).flags = s.flags := by
  cases dst <;> rfl
@[simp] theorem State.setLxiDest_pc (s : State) (dst : LxiDest) (v : Word) : (s.setLxiDest dst v).pc = s.pc := by
  cases dst <;> rfl
@[simp] theorem State.setLxiDest_halted (s : State) (dst : LxiDest) (v : Word) :
    (s.setLxiDest dst v).halted = s.halted := by
  cases dst <;> rfl
@[simp] theorem State.setLxiDest_mem (s : State) (dst : LxiDest) (v : Word) : (s.setLxiDest dst v).mem = s.mem := by
  cases dst <;> rfl
@[simp] theorem State.setLxiDest_window (s : State) (dst : LxiDest) (v : Word) :
    (s.setLxiDest dst v).window = s.window := by
  cases dst <;> rfl

/-! ### Registers and pairs -/

theorem State.reg_def (s : State) (r : Reg) : s.reg r = s.regs.get r := rfl
theorem State.pair_def (s : State) (rp : Pair) : s.pair rp = s.regs.getPair rp := rfl

@[simp] theorem Regs.get_set_same (r : Regs) (i : Reg) (v : Byte) : (r.set i v).get i = v := by
  cases i <;> rfl

theorem Regs.get_set_ne (r : Regs) {i j : Reg} (v : Byte) (h : j ≠ i) : (r.set i v).get j = r.get j := by
  cases i <;> cases j <;> first | rfl | exact absurd rfl h

@[simp] theorem Regs.set_get_same (r : Regs) (i : Reg) : r.set i (r.get i) = r := by
  cases i <;> rfl

theorem wordOf_toNat (hi lo : Byte) : (wordOf hi lo).toNat = hi.toNat * 256 + lo.toNat := by
  unfold wordOf
  rw [BitVec.toNat_append, Nat.shiftLeft_eq, Nat.mul_comm, ← Nat.two_pow_add_eq_or_of_lt lo.isLt]

theorem hi8_toNat (v : Word) : (hi8 v).toNat = v.toNat / 256 := by
  have := v.isLt
  simp only [hi8, BitVec.extractLsb'_toNat, Nat.shiftRight_eq_div_pow]
  omega

theorem lo8_toNat (v : Word) : (lo8 v).toNat = v.toNat % 256 := by
  simp [lo8, BitVec.extractLsb'_toNat]

@[simp] theorem hi8_wordOf (hi lo : Byte) : hi8 (wordOf hi lo) = hi := by
  have := lo.isLt
  apply BitVec.eq_of_toNat_eq
  rw [hi8_toNat, wordOf_toNat]
  omega

@[simp] theorem lo8_wordOf (hi lo : Byte) : lo8 (wordOf hi lo) = lo := by
  have := lo.isLt
  apply BitVec.eq_of_toNat_eq
  rw [lo8_toNat, wordOf_toNat]
  omega

@[simp] theorem wordOf_hi8_lo8 (v : Word) : wordOf (hi8 v) (lo8 v) = v := by
  apply BitVec.eq_of_toNat_eq
  rw [wordOf_toNat, hi8_toNat, lo8_toNat]
  omega

@[simp] theorem Regs.getPair_setPair_same (r : Regs) (rp : Pair) (v : Word) : (r.setPair rp v).getPair rp = v := by
  cases rp <;> exact wordOf_hi8_lo8 v

theorem Regs.getPair_setPair_ne (r : Regs) {rp rq : Pair} (v : Word) (h : rq ≠ rp) :
    (r.setPair rp v).getPair rq = r.getPair rq := by
  cases rp <;> cases rq <;> first | rfl | exact absurd rfl h

/-- A pair write reaches no register outside the pair. -/
theorem Regs.get_setPair_ne (r : Regs) {rp : Pair} {j : Reg} (v : Word)
    (h : (rp, j) ∉ [(Pair.bc, Reg.b), (.bc, .c), (.de, .d), (.de, .e), (.hl, .h), (.hl, .l)]) :
    (r.setPair rp v).get j = r.get j := by
  cases rp <;> cases j <;> first | rfl | exact absurd (by decide) h

end Sys2Proof.Machine
end

