-- ==== Sys2Proof/Laws/Ops.lean ====
section
/-! SUPPORT. One lemma per shared operation: everything it can do. -/

namespace Sys2Proof.Machine

/-- An address inside an admissible window is one of `MEM_BASE .. MEM_BASE + MEM_SIZE - 1` (R51, R52). -/
theorem inWindow_iff {w : Window} (hw : w.Admissible) (addr : Word) :
    inWindow w addr = true ↔ w.base.toNat ≤ addr.toNat ∧ addr.toNat < w.base.toNat + w.size := by
  obtain ⟨h1, h2⟩ := hw
  have := addr.isLt
  have := w.base.isLt
  simp only [inWindow, decide_eq_true_eq, BitVec.toNat_sub]
  omega

theorem readByte_inside {s : State} {addr : Word} (h : inWindow s.window addr = true) :
    s.readByte addr = .ok (Memory.read s.mem addr.toNat) := by simp [State.readByte, h]

theorem readByte_outside {s : State} {addr : Word} (h : inWindow s.window addr = false) :
    s.readByte addr = .error (.accessFault addr) := by simp [State.readByte, h]

theorem readByte_cases (s : State) (addr : Word) :
    (inWindow s.window addr = true ∧ s.readByte addr = .ok (Memory.read s.mem addr.toNat)) ∨
      (inWindow s.window addr = false ∧ s.readByte addr = .error (.accessFault addr)) := by
  cases h : inWindow s.window addr
  · exact .inr ⟨rfl, readByte_outside h⟩
  · exact .inl ⟨rfl, readByte_inside h⟩

theorem writeByte_inside {s : State} {addr : Word} (h : inWindow s.window addr = true) (v : Byte) :
    s.writeByte addr v = .ok { s with mem := Memory.write s.mem addr.toNat v } := by simp [State.writeByte, h]

theorem writeByte_outside {s : State} {addr : Word} (h : inWindow s.window addr = false) (v : Byte) :
    s.writeByte addr v = .error (.accessFault addr) := by simp [State.writeByte, h]

theorem readWord_inside {s : State} {addr : Word} (h0 : inWindow s.window addr = true)
    (h1 : inWindow s.window (addr + 1#16) = true) :
    s.readWord addr =
      .ok (wordOf (Memory.read s.mem (addr + 1#16).toNat) (Memory.read s.mem addr.toNat)) := by
  simp only [State.readWord, readByte_inside h0, readByte_inside h1]

/-- A 16-bit read fails with the first byte address, in read order, that is outside. -/
theorem readWord_error {s : State} {addr : Word} {f : Fault} (h : s.readWord addr = .error f) :
    (f = .accessFault addr ∧ inWindow s.window addr = false) ∨
      (f = .accessFault (addr + 1#16) ∧ inWindow s.window addr = true ∧ inWindow s.window (addr + 1#16) = false) := by
  rcases readByte_cases s addr with ⟨h0, e0⟩ | ⟨h0, e0⟩
  · rcases readByte_cases s (addr + 1#16) with ⟨h1, e1⟩ | ⟨h1, e1⟩
    · simp only [State.readWord, e0, e1, reduceCtorEq] at h
    · simp only [State.readWord, e0, e1, Except.error.injEq] at h; exact .inr ⟨h.symm, h0, h1⟩
  · simp only [State.readWord, e0, Except.error.injEq] at h; exact .inl ⟨h.symm, h0⟩

theorem writeWord_inside {s : State} {addr : Word} (h0 : inWindow s.window addr = true)
    (h1 : inWindow s.window (addr + 1#16) = true) (v : Word) :
    s.writeWord addr v =
      .ok { s with mem := Memory.write (Memory.write s.mem addr.toNat (lo8 v)) (addr + 1#16).toNat (hi8 v) } := by
  simp only [State.writeWord, State.writeByte, h0, h1, if_true]

theorem writeWord_error {s : State} {addr : Word} {v : Word} {f : Fault} (h : s.writeWord addr v = .error f) :
    (f = .accessFault addr ∧ inWindow s.window addr = false) ∨
      (f = .accessFault (addr + 1#16) ∧ inWindow s.window addr = true ∧ inWindow s.window (addr + 1#16) = false) := by
  cases h0 : inWindow s.window addr
  · simp [State.writeWord, writeByte_outside h0] at h; exact .inl ⟨h.symm, rfl⟩
  · cases h1 : inWindow s.window (addr + 1#16)
    · simp [State.writeWord, State.writeByte, h0, h1] at h; exact .inr ⟨h.symm, rfl, rfl⟩
    · simp [writeWord_inside h0 h1] at h

theorem pushWord_inside {s : State} (h1 : inWindow s.window (s.sp - 1#16) = true)
    (h2 : inWindow s.window (s.sp - 2#16) = true) (v : Word) :
    s.pushWord v =
      .ok { s with
        mem := Memory.write (Memory.write s.mem (s.sp - 1#16).toNat (hi8 v)) (s.sp - 2#16).toNat (lo8 v),
        sp := s.sp - 2#16 } := by
  simp only [State.pushWord, State.writeByte, h1, h2, if_true]

theorem pushWord_error {s : State} {v : Word} {f : Fault} (h : s.pushWord v = .error f) :
    (f = .accessFault (s.sp - 1#16) ∧ inWindow s.window (s.sp - 1#16) = false) ∨
      (f = .accessFault (s.sp - 2#16) ∧ inWindow s.window (s.sp - 1#16) = true ∧
        inWindow s.window (s.sp - 2#16) = false) := by
  cases h1 : inWindow s.window (s.sp - 1#16)
  · simp [State.pushWord, writeByte_outside h1] at h; exact .inl ⟨h.symm, rfl⟩
  · cases h2 : inWindow s.window (s.sp - 2#16)
    · simp [State.pushWord, State.writeByte, h1, h2] at h; exact .inr ⟨h.symm, rfl, rfl⟩
    · simp [pushWord_inside h1 h2] at h

theorem popWord_inside {s : State} (h0 : inWindow s.window s.sp = true)
    (h1 : inWindow s.window (s.sp + 1#16) = true) :
    s.popWord =
      .ok (wordOf (Memory.read s.mem (s.sp + 1#16).toNat) (Memory.read s.mem s.sp.toNat), { s with sp := s.sp + 2#16 }) := by
  simp only [State.popWord, readWord_inside h0 h1]

theorem popWord_error {s : State} {f : Fault} (h : s.popWord = .error f) :
    (f = .accessFault s.sp ∧ inWindow s.window s.sp = false) ∨
      (f = .accessFault (s.sp + 1#16) ∧ inWindow s.window s.sp = true ∧ inWindow s.window (s.sp + 1#16) = false) := by
  cases hr : s.readWord s.sp with
  | error g =>
    simp only [State.popWord, hr, Except.error.injEq] at h
    subst h
    exact readWord_error hr
  | ok v => simp [State.popWord, hr] at h

/-! ### Inversion: what holds when the operation succeeded -/

theorem readByte_eq_ok {s : State} {addr : Word} {v : Byte} :
    s.readByte addr = .ok v ↔ inWindow s.window addr = true ∧ v = Memory.read s.mem addr.toNat := by
  cases h : inWindow s.window addr
  · simp [readByte_outside h]
  · simp [readByte_inside h, eq_comm]

theorem writeByte_eq_ok {s t : State} {addr : Word} {v : Byte} :
    s.writeByte addr v = .ok t ↔
      inWindow s.window addr = true ∧ t = { s with mem := Memory.write s.mem addr.toNat v } := by
  cases h : inWindow s.window addr
  · simp [writeByte_outside h]
  · simp [writeByte_inside h, eq_comm]

theorem readWord_eq_ok {s : State} {addr : Word} {v : Word} :
    s.readWord addr = .ok v ↔
      inWindow s.window addr = true ∧ inWindow s.window (addr + 1#16) = true ∧
        v = wordOf (Memory.read s.mem (addr + 1#16).toNat) (Memory.read s.mem addr.toNat) := by
  constructor
  · intro h
    cases h0 : inWindow s.window addr
    · simp only [State.readWord, readByte_outside h0, reduceCtorEq] at h
    · cases h1 : inWindow s.window (addr + 1#16)
      · simp only [State.readWord, readByte_inside h0, readByte_outside h1, reduceCtorEq] at h
      · rw [readWord_inside h0 h1, Except.ok.injEq] at h
        exact ⟨rfl, rfl, h.symm⟩
  · rintro ⟨h0, h1, rfl⟩
    exact readWord_inside h0 h1

theorem writeWord_eq_ok {s t : State} {addr : Word} {v : Word} :
    s.writeWord addr v = .ok t ↔
      inWindow s.window addr = true ∧ inWindow s.window (addr + 1#16) = true ∧
        t = { s with mem := Memory.write (Memory.write s.mem addr.toNat (lo8 v)) (addr + 1#16).toNat (hi8 v) } := by
  constructor
  · intro h
    cases h0 : inWindow s.window addr
    · simp only [State.writeWord, writeByte_outside h0, reduceCtorEq] at h
    · cases h1 : inWindow s.window (addr + 1#16)
      · simp only [State.writeWord, State.writeByte, h0, h1, if_true, Bool.false_eq_true, if_false, reduceCtorEq] at h
      · rw [writeWord_inside h0 h1, Except.ok.injEq] at h
        exact ⟨rfl, rfl, h.symm⟩
  · rintro ⟨h0, h1, rfl⟩
    exact writeWord_inside h0 h1 v

theorem pushWord_eq_ok {s t : State} {v : Word} :
    s.pushWord v = .ok t ↔
      inWindow s.window (s.sp - 1#16) = true ∧ inWindow s.window (s.sp - 2#16) = true ∧
        t = { s with
          mem := Memory.write (Memory.write s.mem (s.sp - 1#16).toNat (hi8 v)) (s.sp - 2#16).toNat (lo8 v),
          sp := s.sp - 2#16 } := by
  constructor
  · intro h
    cases h1 : inWindow s.window (s.sp - 1#16)
    · simp only [State.pushWord, writeByte_outside h1, reduceCtorEq] at h
    · cases h2 : inWindow s.window (s.sp - 2#16)
      · simp only [State.pushWord, State.writeByte, h1, h2, if_true, Bool.false_eq_true, if_false, reduceCtorEq] at h
      · rw [pushWord_inside h1 h2, Except.ok.injEq] at h
        exact ⟨rfl, rfl, h.symm⟩
  · rintro ⟨h1, h2, rfl⟩
    exact pushWord_inside h1 h2 v

theorem popWord_eq_ok {s t : State} {v : Word} :
    s.popWord = .ok (v, t) ↔ s.readWord s.sp = .ok v ∧ t = { s with sp := s.sp + 2#16 } := by
  unfold State.popWord
  cases s.readWord s.sp with
  | error f => simp
  | ok w => simp [eq_comm]

/-! ### The two bytes of a 16-bit access and of a stack slot are apart, and the stack pointer comes back -/

theorem ne_add_one (a : Word) : a ≠ a + 1#16 := by bv_omega
theorem sub_one_ne_sub_two (a : Word) : a - 1#16 ≠ a - 2#16 := by bv_omega
theorem sub_two_add_one (a : Word) : a - 2#16 + 1#16 = a - 1#16 := by bv_omega
theorem sub_two_add_two (a : Word) : a - 2#16 + 2#16 = a := by bv_omega

/-! ### What reads see of a write -/

/-- One stored byte changes no other address's reading. -/
theorem readByte_write_ne {s t : State} {x addr : Word} {u : Byte} (hw : t.window = s.window)
    (hm : t.mem = Memory.write s.mem x.toNat u) (h : addr ≠ x) : t.readByte addr = s.readByte addr := by
  simp only [State.readByte, hw, hm, Memory.read_write_ne s.mem u fun e => h (BitVec.eq_of_toNat_eq e.symm)]

/-- Two stored bytes change no other address's reading. -/
theorem readByte_write_write_ne {s t : State} {x y addr : Word} {u v : Byte} (hw : t.window = s.window)
    (hm : t.mem = Memory.write (Memory.write s.mem x.toNat u) y.toNat v) (hx : addr ≠ x) (hy : addr ≠ y) :
    t.readByte addr = s.readByte addr := by
  simp only [State.readByte, hw, hm, Memory.read_write_ne _ v fun e => hy (BitVec.eq_of_toNat_eq e.symm),
    Memory.read_write_ne s.mem u fun e => hx (BitVec.eq_of_toNat_eq e.symm)]

/-- The reading of the byte just stored. -/
theorem readByte_write_same {s t : State} {x : Word} {u : Byte} (hs : Memory.wf s.mem) (hw : t.window = s.window)
    (hm : t.mem = Memory.write s.mem x.toNat u) (h : inWindow s.window x = true) : t.readByte x = .ok u := by
  simp only [State.readByte, hw, h, if_true, hm, Memory.read_write_same hs]

/-- The readings of two bytes stored at two addresses. -/
theorem readByte_write_write {s t : State} {x y : Word} {u v : Byte} (hs : Memory.wf s.mem) (hw : t.window = s.window)
    (hm : t.mem = Memory.write (Memory.write s.mem x.toNat u) y.toNat v) (hne : x ≠ y)
    (hx : inWindow s.window x = true) (hy : inWindow s.window y = true) :
    t.readByte x = .ok u ∧ t.readByte y = .ok v := by
  refine ⟨?_, ?_⟩
  · simp only [State.readByte, hw, hx, if_true, hm,
      Memory.read_write_ne _ v fun e => hne (BitVec.eq_of_toNat_eq e.symm), Memory.read_write_same hs]
  · simp only [State.readByte, hw, hy, if_true, hm, Memory.read_write_same (Memory.wf_write hs _ _)]

/-! ### Commit -/

@[simp] theorem commit_ok (s : State) : commit (.ok s) = .next s := rfl
@[simp] theorem commit_error (f : Fault) : commit (.error f) = .fault f := rfl

theorem commit_eq_next {x : Except Fault State} {t : State} : commit x = .next t ↔ x = .ok t := by
  cases x <;> simp

theorem commit_eq_fault {x : Except Fault State} {f : Fault} : commit x = .fault f ↔ x = .error f := by
  cases x <;> simp

end Sys2Proof.Machine
end

