-- ==== Sys2Proof/Laws/Exec.lean ====
section
/-! SUPPORT. What the shared meanings answer, and what an instruction can do to memory. -/

namespace Sys2Proof.Machine

/-! ## The shared meanings: one lemma per case -/

theorem loadA_inside {s : State} {addr : Word} (n : Word) (h : inWindow s.window addr = true) :
    loadA addr n s = .next ((s.setReg .a (Memory.read s.mem addr.toNat)).advance n) := by
  simp only [loadA, readByte_inside h, commit_ok]

theorem loadA_outside {s : State} {addr : Word} (n : Word) (h : inWindow s.window addr = false) :
    loadA addr n s = .fault (.accessFault addr) := by
  simp only [loadA, readByte_outside h, commit_error]

theorem storeA_inside {s : State} {addr : Word} (n : Word) (h : inWindow s.window addr = true) :
    storeA addr n s = .next { s with mem := Memory.write s.mem addr.toNat (s.reg .a), pc := s.pc + n } := by
  simp only [storeA, writeByte_inside h, commit_ok, State.advance]

theorem storeA_outside {s : State} {addr : Word} (n : Word) (h : inWindow s.window addr = false) :
    storeA addr n s = .fault (.accessFault addr) := by
  simp only [storeA, writeByte_outside h, commit_error]

theorem callIf_not_taken (target : Word) (s : State) : callIf false target s = .next (s.advance 3#16) := rfl

theorem callIf_inside {s : State} (target : Word) (h1 : inWindow s.window (s.sp - 1#16) = true)
    (h2 : inWindow s.window (s.sp - 2#16) = true) :
    callIf true target s = .next { s with
      mem := Memory.write (Memory.write s.mem (s.sp - 1#16).toNat (hi8 (s.pc + 3#16))) (s.sp - 2#16).toNat
        (lo8 (s.pc + 3#16)),
      sp := s.sp - 2#16, pc := target } := by
  simp only [callIf, if_true, pushWord_inside h1 h2, commit_ok, State.jumpTo]

/-! ## Inversion: everything a meaning that can fail leaves when it answers a next state -/

theorem loadA_next {addr n : Word} {s t : State} (h : loadA addr n s = .next t) :
    inWindow s.window addr = true ∧ t = (s.setReg .a (Memory.read s.mem addr.toNat)).advance n := by
  cases hw : inWindow s.window addr
  · rw [loadA_outside n hw] at h; cases h
  · rw [loadA_inside n hw] at h; cases h; exact ⟨rfl, rfl⟩

theorem storeA_next {addr n : Word} {s t : State} (h : storeA addr n s = .next t) :
    inWindow s.window addr = true ∧ t = { s with mem := Memory.write s.mem addr.toNat (s.reg .a), pc := s.pc + n } := by
  cases hw : inWindow s.window addr
  · rw [storeA_outside n hw] at h; cases h
  · rw [storeA_inside n hw] at h; cases h; exact ⟨rfl, rfl⟩

theorem execLhld_next {addr : Word} {s t : State} (h : execLhld addr s = .next t) :
    ∃ v, s.readWord addr = .ok v ∧ t = (s.setPair .hl v).advance 3#16 := by
  rw [execLhld, commit_eq_next] at h
  split at h <;> cases h
  exact ⟨_, ‹_›, rfl⟩

theorem execShld_next {addr : Word} {s t : State} (h : execShld addr s = .next t) :
    inWindow s.window addr = true ∧ inWindow s.window (addr + 1#16) = true ∧ t = { s with
      mem := Memory.write (Memory.write s.mem addr.toNat (lo8 (s.pair .hl))) (addr + 1#16).toNat (hi8 (s.pair .hl)),
      pc := s.pc + 3#16 } := by
  rw [execShld, commit_eq_next] at h
  split at h <;> cases h
  obtain ⟨h1, h2, rfl⟩ := writeWord_eq_ok.1 ‹_›
  exact ⟨h1, h2, rfl⟩

theorem execPush_next {rp : Pair} {s t : State} (h : execPush rp s = .next t) :
    inWindow s.window (s.sp - 1#16) = true ∧ inWindow s.window (s.sp - 2#16) = true ∧ t = { s with
      mem := Memory.write (Memory.write s.mem (s.sp - 1#16).toNat (hi8 (s.pair rp))) (s.sp - 2#16).toNat
        (lo8 (s.pair rp)),
      sp := s.sp - 2#16, pc := s.pc + 1#16 } := by
  rw [execPush, commit_eq_next] at h
  split at h <;> cases h
  obtain ⟨h1, h2, rfl⟩ := pushWord_eq_ok.1 ‹_›
  exact ⟨h1, h2, rfl⟩

theorem execPop_next {rp : Pair} {s t : State} (h : execPop rp s = .next t) :
    ∃ v, s.readWord s.sp = .ok v ∧
      t = { s with regs := s.regs.setPair rp v, sp := s.sp + 2#16, pc := s.pc + 1#16 } := by
  rw [execPop, commit_eq_next] at h
  split at h <;> cases h
  obtain ⟨h1, rfl⟩ := popWord_eq_ok.1 ‹_›
  exact ⟨_, h1, rfl⟩

theorem execRet_next {s t : State} (h : execRet s = .next t) :
    ∃ v, s.readWord s.sp = .ok v ∧ t = { s with sp := s.sp + 2#16, pc := v } := by
  rw [execRet, commit_eq_next] at h
  split at h <;> cases h
  obtain ⟨h1, rfl⟩ := popWord_eq_ok.1 ‹_›
  exact ⟨_, h1, rfl⟩

theorem callIf_next {b : Bool} {target : Word} {s t : State} (h : callIf b target s = .next t) :
    (b = true ∧ inWindow s.window (s.sp - 1#16) = true ∧ inWindow s.window (s.sp - 2#16) = true ∧ t = { s with
        mem := Memory.write (Memory.write s.mem (s.sp - 1#16).toNat (hi8 (s.pc + 3#16))) (s.sp - 2#16).toNat
          (lo8 (s.pc + 3#16)),
        sp := s.sp - 2#16, pc := target }) ∨
      (b = false ∧ t = s.advance 3#16) := by
  cases b
  · cases h; exact .inr ⟨rfl, rfl⟩
  · rw [callIf, commit_eq_next] at h
    simp only [if_true] at h
    split at h <;> cases h
    obtain ⟨h1, h2, rfl⟩ := pushWord_eq_ok.1 ‹_›
    exact .inl ⟨rfl, h1, h2, rfl⟩

/-- A jump in one equation: only `pc` changes. -/
theorem jumpIf_eq (b : Bool) (target : Word) (s : State) :
    jumpIf b target s = .next { s with pc := if b then target else s.pc + 3#16 } := by cases b <;> rfl

/-! ## What an instruction can do to memory -/

/-- Memory after some byte stores inside the window. -/
inductive Stores (w : Window) (m : Memory) : Memory → Prop where
  | none : Stores w m m
  | store {n : Memory} (addr : Word) (v : Byte) : Stores w m n → inWindow w addr = true →
      Stores w m (Memory.write n addr.toNat v)

theorem Stores.wf {w : Window} {m n : Memory} (h : Stores w m n) (hm : Memory.wf m) : Memory.wf n := by
  induction h with
  | none => exact hm
  | store addr v _ _ ih => exact Memory.wf_write ih _ _

/-- Stores inside an admissible window list cells of the window only. -/
theorem Stores.inside {w : Window} {m n : Memory} (h : Stores w m n) (hw : w.Admissible)
    (hm : ∀ c ∈ m, w.base.toNat ≤ c.1 ∧ c.1 < w.base.toNat + w.size) :
    ∀ c ∈ n, w.base.toNat ≤ c.1 ∧ c.1 < w.base.toNat + w.size := by
  induction h with
  | none => exact hm
  | store addr v _ ha ih =>
    intro c hc
    rcases Memory.mem_write hc with rfl | hc
    · exact (inWindow_iff hw addr).1 ha
    · exact ih c hc

/-- Everything an instruction can do to the window and to memory: it keeps the window, and memory is as before but for
byte stores inside the window. -/
theorem exec_stores {i : Instr} {s t : State} (h : exec i s = .next t) :
    t.window = s.window ∧ Stores s.window s.mem t.mem := by
  cases i with
  | lda | ldax => obtain ⟨_, rfl⟩ := loadA_next h; exact ⟨rfl, .none⟩
  | sta | stax => obtain ⟨h0, rfl⟩ := storeA_next h; exact ⟨rfl, .store _ _ .none h0⟩
  | call | cnz | cz | cnc | cc | cpo | cpe | cp | cm =>
    obtain ⟨_, h1, h2, rfl⟩ | ⟨_, rfl⟩ := callIf_next h
    · exact ⟨rfl, .store _ _ (.store _ _ .none h1) h2⟩
    · exact ⟨rfl, .none⟩
  | lhld => obtain ⟨_, _, rfl⟩ := execLhld_next h; exact ⟨rfl, .none⟩
  | shld => obtain ⟨h0, h1, rfl⟩ := execShld_next h; exact ⟨rfl, .store _ _ (.store _ _ .none h0) h1⟩
  | push => obtain ⟨h1, h2, rfl⟩ := execPush_next h; exact ⟨rfl, .store _ _ (.store _ _ .none h1) h2⟩
  | pop => obtain ⟨_, _, rfl⟩ := execPop_next h; exact ⟨rfl, .none⟩
  | ret => obtain ⟨_, _, rfl⟩ := execRet_next h; exact ⟨rfl, .none⟩
  | jmp | jnz | jz | jnc | jc | jpo | jpe | jp | jm =>
    cases (jumpIf_eq _ _ s).symm.trans h; exact ⟨rfl, .none⟩
  | lxi dst => cases h; cases dst <;> exact ⟨rfl, .none⟩
  | mov | mvi | xchg | add | adc | adi | aci | sub | sbb | sui | inr | dcr | ana | ani | ora | xra | cma | cmc |
    rlc | rrc | ral | rar | cmp | cpi | hlt => cases h; exact ⟨rfl, .none⟩

end Sys2Proof.Machine
end

