-- ==== Sys2Proof/Laws/Fetch.lean ====
section
/-! SUPPORT. What the fetch of an instruction can answer, case by case. -/

namespace Sys2Proof.Machine

theorem fetchInstr_pc_outside {s : State} (h : inWindow s.window s.pc = false) :
    fetchInstr s = .error (.accessFault s.pc) := by
  simp only [fetchInstr, readByte_outside h]

theorem fetchInstr_unrecognised {s : State} {op : Byte} (h : s.readByte s.pc = .ok op) (hd : decodeOp op = none) :
    fetchInstr s = .error (.decodeError op) := by
  simp only [fetchInstr, h, hd]

theorem fetchInstr_recognised {s : State} {op : Byte} {t : Template} (h : s.readByte s.pc = .ok op)
    (hd : decodeOp op = some t) : fetchInstr s = fetchOperands t s := by
  simp only [fetchInstr, h, hd]

end Sys2Proof.Machine
end

