-- ==== Sys2Proof/Laws/Flags.lean ====
section
/-! SUPPORT. The ALU in numbers: what the 9-bit raw results of `add9` and `sub9` are, byte and carry. -/

namespace Sys2Proof.Machine

theorem bit_le_one (b : Bool) : bit b ≤ 1 := by cases b <;> decide

@[simp] theorem bit_true : bit true = 1 := rfl
@[simp] theorem bit_false : bit false = 0 := rfl

theorem low8_toNat (raw : BitVec 9) : (low8 raw).toNat = raw.toNat % 256 := by
  simp [low8, BitVec.extractLsb'_toNat]

/-- Bit 8 of a raw result: the same as `raw > 0xFF` (R126). -/
theorem carry_bit (raw : BitVec 9) : raw.getLsbD 8 = decide (255 < raw.toNat) := by
  rw [BitVec.getLsbD, Nat.testBit_eq_decide_div_mod_eq]
  have := raw.isLt
  congr 1
  exact propext ⟨fun h => by omega, fun h => by omega⟩

theorem add9_toNat (a b : Byte) (cin : Bool) : (add9 a b cin).toNat = a.toNat + b.toNat + bit cin := by
  have := bit_le_one cin
  have := a.isLt
  have := b.isLt
  simp only [add9, BitVec.toNat_add, BitVec.toNat_setWidth, BitVec.toNat_ofNat]
  omega

theorem sub9_toNat (a b : Byte) (bin : Bool) :
    (sub9 a b bin).toNat = (512 + a.toNat - b.toNat - bit bin) % 512 := by
  have := bit_le_one bin
  have := a.isLt
  have := b.isLt
  simp only [sub9, BitVec.toNat_sub, BitVec.toNat_setWidth, BitVec.toNat_ofNat]
  omega

end Sys2Proof.Machine
end

