-- ==== Sys2Proof/Laws/HostPort.lean ====
section
/-! SUPPORT. What the host port's operations can answer. -/

namespace Sys2Proof.Machine

/-- A cell the port finds lies in the window (R33, R298). -/
theorem cellAddress_inside {w : Window} (hw : w.Admissible) {c : CellRef} {addr : Word}
    (h : cellAddress w c = some addr) : inWindow w addr = true := by
  cases c with
  | address a =>
    simp only [cellAddress, Option.ite_none_right_eq_some, Option.some.injEq] at h
    exact h.2 ▸ h.1
  | index i =>
    simp only [cellAddress, Option.ite_none_right_eq_some, Option.some.injEq] at h
    obtain ⟨hi, rfl⟩ := h
    have := hw.2
    rw [inWindow_iff hw, BitVec.toNat_add, BitVec.toNat_ofNat]
    omega

/-- The state a `STEP` request leaves: that of a step that was `ok`, otherwise the one before it (R120, R122, R262). -/
theorem hostStep_state (s : State) : (∃ t, step s = .next t ∧ (hostStep s).2 = t) ∨ (hostStep s).2 = s := by
  unfold hostStep
  split
  · exact .inl ⟨_, ‹_›, rfl⟩
  all_goals exact .inr rfl

end Sys2Proof.Machine
end

