-- ==== Sys2Proof/Laws/PerInstr.lean ====
section
/-! SUPPORT. Family `Encoding`, per instruction: the operand types hold no ill-formed operand, and the encoding has the
length of the table of R86. -/

namespace Sys2Proof.Laws.Encoding

def Statement (i : Instr) : Prop := i.wellFormed = true ∧ (encode i).length = i.len

theorem mov (dst src : Reg) : Statement (.mov dst src) := by
  cases dst <;> cases src <;> exact ⟨rfl, rfl⟩
theorem mvi (dst : Reg) (imm : Byte) : Statement (.mvi dst imm) := by
  cases dst <;> exact ⟨rfl, rfl⟩
theorem lxi (dst : LxiDest) (imm : Word) : Statement (.lxi dst imm) := ⟨rfl, rfl⟩
theorem lda (addr : Word) : Statement (.lda addr) := ⟨rfl, rfl⟩
theorem sta (addr : Word) : Statement (.sta addr) := ⟨rfl, rfl⟩
theorem lhld (addr : Word) : Statement (.lhld addr) := ⟨rfl, rfl⟩
theorem shld (addr : Word) : Statement (.shld addr) := ⟨rfl, rfl⟩
theorem ldax (rp : PtrPair) : Statement (.ldax rp) := by
  cases rp <;> exact ⟨rfl, rfl⟩
theorem stax (rp : PtrPair) : Statement (.stax rp) := by
  cases rp <;> exact ⟨rfl, rfl⟩
theorem xchg : Statement .xchg := ⟨rfl, rfl⟩
theorem add (src : Reg) : Statement (.add src) := by
  cases src <;> exact ⟨rfl, rfl⟩
theorem adc (src : Reg) : Statement (.adc src) := by
  cases src <;> exact ⟨rfl, rfl⟩
theorem adi (imm : Byte) : Statement (.adi imm) := ⟨rfl, rfl⟩
theorem aci (imm : Byte) : Statement (.aci imm) := ⟨rfl, rfl⟩
theorem sub (src : Reg) : Statement (.sub src) := by
  cases src <;> exact ⟨rfl, rfl⟩
theorem sbb (src : Reg) : Statement (.sbb src) := by
  cases src <;> exact ⟨rfl, rfl⟩
theorem sui (imm : Byte) : Statement (.sui imm) := ⟨rfl, rfl⟩
theorem inr (reg : Reg) : Statement (.inr reg) := by
  cases reg <;> exact ⟨rfl, rfl⟩
theorem dcr (reg : Reg) : Statement (.dcr reg) := by
  cases reg <;> exact ⟨rfl, rfl⟩
theorem ana (src : Reg) : Statement (.ana src) := by
  cases src <;> exact ⟨rfl, rfl⟩
theorem ani (imm : Byte) : Statement (.ani imm) := ⟨rfl, rfl⟩
theorem ora (src : Reg) : Statement (.ora src) := by
  cases src <;> exact ⟨rfl, rfl⟩
theorem xra (src : Reg) : Statement (.xra src) := by
  cases src <;> exact ⟨rfl, rfl⟩
theorem cma : Statement .cma := ⟨rfl, rfl⟩
theorem cmc : Statement .cmc := ⟨rfl, rfl⟩
theorem rlc : Statement .rlc := ⟨rfl, rfl⟩
theorem rrc : Statement .rrc := ⟨rfl, rfl⟩
theorem ral : Statement .ral := ⟨rfl, rfl⟩
theorem rar : Statement .rar := ⟨rfl, rfl⟩
theorem cmp (src : Reg) : Statement (.cmp src) := by
  cases src <;> exact ⟨rfl, rfl⟩
theorem cpi (imm : Byte) : Statement (.cpi imm) := ⟨rfl, rfl⟩
theorem jmp (target : Word) : Statement (.jmp target) := ⟨rfl, rfl⟩
theorem jnz (target : Word) : Statement (.jnz target) := ⟨rfl, rfl⟩
theorem jz (target : Word) : Statement (.jz target) := ⟨rfl, rfl⟩
theorem jnc (target : Word) : Statement (.jnc target) := ⟨rfl, rfl⟩
theorem jc (target : Word) : Statement (.jc target) := ⟨rfl, rfl⟩
theorem jpo (target : Word) : Statement (.jpo target) := ⟨rfl, rfl⟩
theorem jpe (target : Word) : Statement (.jpe target) := ⟨rfl, rfl⟩
theorem jp (target : Word) : Statement (.jp target) := ⟨rfl, rfl⟩
theorem jm (target : Word) : Statement (.jm target) := ⟨rfl, rfl⟩
theorem call (target : Word) : Statement (.call target) := ⟨rfl, rfl⟩
theorem cnz (target : Word) : Statement (.cnz target) := ⟨rfl, rfl⟩
theorem cz (target : Word) : Statement (.cz target) := ⟨rfl, rfl⟩
theorem cnc (target : Word) : Statement (.cnc target) := ⟨rfl, rfl⟩
theorem cc (target : Word) : Statement (.cc target) := ⟨rfl, rfl⟩
theorem cpo (target : Word) : Statement (.cpo target) := ⟨rfl, rfl⟩
theorem cpe (target : Word) : Statement (.cpe target) := ⟨rfl, rfl⟩
theorem cp (target : Word) : Statement (.cp target) := ⟨rfl, rfl⟩
theorem cm (target : Word) : Statement (.cm target) := ⟨rfl, rfl⟩
theorem ret : Statement .ret := ⟨rfl, rfl⟩
theorem push (rp : Pair) : Statement (.push rp) := by
  cases rp <;> exact ⟨rfl, rfl⟩
theorem pop (rp : Pair) : Statement (.pop rp) := by
  cases rp <;> exact ⟨rfl, rfl⟩
theorem hlt : Statement .hlt := ⟨rfl, rfl⟩

end Sys2Proof.Laws.Encoding
end

