-- ==== Sys2Proof/Tests/Slice0.lean ====
section
/-! SUPPORT. Tests: the checks of WellFormed refuse ill-formed fields, words written out from the spec's encodings decode
to their instructions, the worked vectors of spec 95 (the V numbers are its own), and for every statement with hypotheses
a concrete state that meets them, at boundary values. -/

namespace Sys2Proof.Tests
open Sys2Proof.Machine Sys2Proof.Stated

/-! ## States -/

/-- After reset, the window that is the whole address space. -/
def full : State := State.resetFor { base := 0x0000#16, size := 65536 }

/-- After reset, a window from 0x0800 to 0x0FFF. -/
def low : State := State.resetFor { base := 0x0800#16, size := 0x0800 }

/-- After reset, a window of the one cell 0xFFFF. -/
def top : State := State.resetFor { base := 0xFFFF#16, size := 1 }

/-- Memory with some bytes set. -/
def poked (m : Memory) : List (Nat × Byte) → Memory
  | [] => m
  | c :: cs => poked (Memory.write m c.1 c.2) cs

/-- A state with an instruction's bytes at `pc`. -/
def atPc (bytes : List Byte) (s : State) : State := s.placeBytes s.pc bytes

/-- One step from `s` with `bytes` at `pc` ends in the state `after` gives. -/
def runsTo (bytes : List Byte) (s : State) (after : State → State) : Bool :=
  match step (atPc bytes s) with
  | .next t => decide (t = after (atPc bytes s))
  | _ => false

/-- One step from `s` with `bytes` at `pc` fails with `f`. -/
def stopsWith (bytes : List Byte) (s : State) (f : Fault) : Bool :=
  match step (atPc bytes s) with
  | .fault g => decide (g = f)
  | _ => false

/-- An outcome is a next state. -/
def isNext : Host.Outcome State Fault Refusal → Bool
  | .next _ => true
  | _ => false

theorem exists_next {o : Host.Outcome State Fault Refusal} (h : isNext o = true) : ∃ t, o = .next t := by
  cases o with
  | next t => exact ⟨t, rfl⟩
  | fault f => cases h
  | refused r => cases h

/-! ## WellFormed: the smoke tests (R21, R23, R81, R84) -/

theorem test_register_field_110_is_refused : regFieldOk 0b110#3 = false ∧ regFieldOk 0b111#3 = true := by decide
theorem test_stack_pair_field_11_is_refused : stackPairFieldOk 0b11#2 = false ∧ stackPairFieldOk 0b10#2 = true := by
  decide
theorem test_pointer_pair_fields_10_11_are_refused :
    pointerPairFieldOk 0b10#2 = false ∧ pointerPairFieldOk 0b11#2 = false ∧ pointerPairFieldOk 0b01#2 = true := by decide
theorem test_ill_formed_fields_do_not_decode :
    decode [0b01#2 ++ 0b110#3 ++ 0b000#3] = .error (.unrecognised 0x70#8) ∧
    decode [0b01#2 ++ 0b000#3 ++ 0b110#3] = .error (.unrecognised 0x46#8) ∧
    decode [0b00#2 ++ 0b110#3 ++ 0b110#3, 0x00#8] = .error (.unrecognised 0x36#8) ∧
    decode [0b10000#5 ++ 0b110#3] = .error (.unrecognised 0x86#8) ∧
    decode [0b00#2 ++ 0b110#3 ++ 0b100#3] = .error (.unrecognised 0x34#8) ∧
    decode [0b11#2 ++ 0b11#2 ++ 0b0101#4] = .error (.unrecognised 0xF5#8) ∧
    decode [0b11#2 ++ 0b11#2 ++ 0b0001#4] = .error (.unrecognised 0xF1#8) := by decide
theorem test_pointer_pair_10_11_are_other_instructions :
    decode [0b00#2 ++ 0b10#2 ++ 0b1010#4, 0x00#8, 0x00#8] = .ok (.lhld 0x0000#16, []) ∧
    decode [0b00#2 ++ 0b11#2 ++ 0b1010#4, 0x00#8, 0x00#8] = .ok (.lda 0x0000#16, []) := by decide

/-! ## Decode: words written out from the format table R81 and the opcode list R86 -/

theorem test_decode_data_move : ∀ p ∈ ([
    ([0b01011001#8], .mov .e .c),
    ([0b00111110#8, 0x03#8], .mvi .a 0x03#8),
    ([0b00110001#8, 0x00#8, 0x01#8], .lxi .sp 0x0100#16),
    ([0b00000001#8, 0x34#8, 0x12#8], .lxi (.pair .bc) 0x1234#16),
    ([0b00111010#8, 0x20#8, 0x00#8], .lda 0x0020#16),
    ([0b00110010#8, 0x21#8, 0x00#8], .sta 0x0021#16),
    ([0b00101010#8, 0x30#8, 0x00#8], .lhld 0x0030#16),
    ([0b00100010#8, 0x40#8, 0x80#8], .shld 0x8040#16),
    ([0b00011010#8], .ldax .de),
    ([0b00000010#8], .stax .bc),
    ([0b11101011#8], .xchg)] : List (List Byte × Instr)), decode p.1 = .ok (p.2, []) := by decide
theorem test_decode_arithmetic : ∀ p ∈ ([
    ([0b10000000#8], .add .b),
    ([0b10001001#8], .adc .c),
    ([0b11000110#8, 0x04#8], .adi 0x04#8),
    ([0b11001110#8, 0xBE#8], .aci 0xBE#8),
    ([0b10010010#8], .sub .d),
    ([0b10011101#8], .sbb .l),
    ([0b11010110#8, 0x01#8], .sui 0x01#8),
    ([0b00100100#8], .inr .h),
    ([0b00111101#8], .dcr .a)] : List (List Byte × Instr)), decode p.1 = .ok (p.2, []) := by decide
theorem test_decode_logic_rotate_compare : ∀ p ∈ ([
    ([0b10100001#8], .ana .c),
    ([0b11100110#8, 0xF0#8], .ani 0xF0#8),
    ([0b10110011#8], .ora .e),
    ([0b10101111#8], .xra .a),
    ([0b00101111#8], .cma),
    ([0b00111111#8], .cmc),
    ([0b00000111#8], .rlc),
    ([0b00001111#8], .rrc),
    ([0b00010111#8], .ral),
    ([0b00011111#8], .rar),
    ([0b10111100#8], .cmp .h),
    ([0b11111110#8, 0x40#8], .cpi 0x40#8)] : List (List Byte × Instr)), decode p.1 = .ok (p.2, []) := by decide
theorem test_decode_jumps : ∀ p ∈ ([
    ([0b11000011#8, 0x10#8, 0x00#8], .jmp 0x0010#16),
    ([0b11000010#8, 0x23#8, 0x01#8], .jnz 0x0123#16),
    ([0b11001010#8, 0x23#8, 0x01#8], .jz 0x0123#16),
    ([0b11010010#8, 0x23#8, 0x01#8], .jnc 0x0123#16),
    ([0b11011010#8, 0x23#8, 0x01#8], .jc 0x0123#16),
    ([0b11100010#8, 0x23#8, 0x01#8], .jpo 0x0123#16),
    ([0b11101010#8, 0x23#8, 0x01#8], .jpe 0x0123#16),
    ([0b11110010#8, 0x23#8, 0x01#8], .jp 0x0123#16),
    ([0b11111010#8, 0x23#8, 0x01#8], .jm 0x0123#16)] : List (List Byte × Instr)), decode p.1 = .ok (p.2, []) := by decide
theorem test_decode_calls_ret_stack_halt : ∀ p ∈ ([
    ([0b11001101#8, 0x20#8, 0x00#8], .call 0x0020#16),
    ([0b11000100#8, 0x20#8, 0x00#8], .cnz 0x0020#16),
    ([0b11001100#8, 0x20#8, 0x00#8], .cz 0x0020#16),
    ([0b11010100#8, 0x20#8, 0x00#8], .cnc 0x0020#16),
    ([0b11011100#8, 0x20#8, 0x00#8], .cc 0x0020#16),
    ([0b11100100#8, 0x20#8, 0x00#8], .cpo 0x0020#16),
    ([0b11101100#8, 0x20#8, 0x00#8], .cpe 0x0020#16),
    ([0b11110100#8, 0x20#8, 0x00#8], .cp 0x0020#16),
    ([0b11111100#8, 0x20#8, 0x00#8], .cm 0x0020#16),
    ([0b11001001#8], .ret),
    ([0b11100101#8], .push .hl),
    ([0b11010001#8], .pop .de),
    ([0b01110110#8], .hlt)] : List (List Byte × Instr)), decode p.1 = .ok (p.2, []) := by decide
theorem test_decode_rejects_by_name :
    decode [] = .error .noByte ∧ decode [0x00#8] = .error (.unrecognised 0x00#8) ∧
    decode [0xC3#8, 0x10#8] = .error (.truncated 0xC3#8) := by decide

/-! ## The host's two entry points, reset -/

theorem test_decode_table_word :
    decodeTableWord 8 0x76 = some .hlt ∧ decodeTableWord 24 0x123421 = some (.lxi (.pair .hl) 0x1234#16) ∧
    decodeTableWord 8 0x3A = some (.lda 0x0000#16) ∧ decodeTableWord 8 0x00 = none := by decide
theorem test_with_fetch_word_runs_the_word :
    (match step (State.reset.withFetchWord 16 0x5A3E) with
      | .next t => decide (t.reg .a = 0x5A#8 ∧ t.pc = 0x0002#16)
      | _ => false) = true := by decide
theorem test_reset_is_as_the_table_of_R36 :
    State.reset.Inv ∧ State.reset.pc = State.reset.window.base ∧ State.reset.sp = State.reset.window.base ∧
    State.reset.halted = false ∧ State.reset.flags.z = false ∧ State.reset.flags.p = false ∧ low.pc = 0x0800#16 ∧
    low.sp = 0x0800#16 ∧ low.readByte 0x0FFF#16 = .ok 0x00#8 := by decide

/-! ## The vectors of spec 95, at most two for an instruction -/

/-- V101: `mov b,a`. -/
theorem test_v101_mov :
    runsTo [0x47#8] { full with regs := { full.regs with a := 0x07#8 } }
    (fun s => { s with regs := { s.regs with b := 0x07#8 }, pc := 0x0001#16 }) = true := by decide

/-- V103: `mov h,l`. -/
theorem test_v103_mov :
    runsTo [0x65#8] { full with regs := { full.regs with h := 0x11#8, l := 0x22#8 }, flags := { s := true, z := true, ac := true, p := true, cy := true } }
    (fun s => { s with regs := { s.regs with h := 0x22#8 }, pc := 0x0001#16 }) = true := by decide

/-- V104: `mvi l,0xFF`. -/
theorem test_v104_mvi :
    runsTo [0x2E#8, 0xFF#8] full
    (fun s => { s with regs := { s.regs with l := 0xFF#8 }, pc := 0x0002#16 }) = true := by decide

/-- V105: `mvi a,0x00`. -/
theorem test_v105_mvi :
    runsTo [0x3E#8, 0x00#8] { full with regs := { full.regs with a := 0x99#8 }, flags := { full.flags with z := false } }
    (fun s => { s with regs := { s.regs with a := 0x00#8 }, pc := 0x0002#16 }) = true := by decide

/-- V106: `lxi b,0x1234`. -/
theorem test_v106_lxi :
    runsTo [0x01#8, 0x34#8, 0x12#8] full
    (fun s => { s with regs := { s.regs with b := 0x12#8, c := 0x34#8 }, pc := 0x0003#16 }) = true := by decide

/-- V109: `lxi sp,0xFFFF`. -/
theorem test_v109_lxi :
    runsTo [0x31#8, 0xFF#8, 0xFF#8] full
    (fun s => { s with pc := 0x0003#16, sp := 0xFFFF#16 }) = true := by decide

/-- V110: `lda 0x0005`. -/
theorem test_v110_lda :
    runsTo [0x3A#8, 0x05#8, 0x00#8] { full with mem := poked full.mem [(0x0005, 0xAB#8)] }
    (fun s => { s with regs := { s.regs with a := 0xAB#8 }, pc := 0x0003#16 }) = true := by decide

/-- V122: `lda 0x9000`. -/
theorem test_v122_lda :
    stopsWith [0x3A#8, 0x00#8, 0x90#8] { low with regs := { low.regs with a := 0x55#8 } } (.accessFault 0x9000#16) = true := by decide

/-- V113: `sta 0x0001`. -/
theorem test_v113_sta :
    runsTo [0x32#8, 0x01#8, 0x00#8] { full with regs := { full.regs with a := 0x77#8 } }
    (fun s => { s with pc := 0x0003#16, mem := poked s.mem [(0x0001, 0x77#8)] }) = true := by decide

/-- V125: `sta 0x0FFF`. -/
theorem test_v125_sta :
    runsTo [0x32#8, 0xFF#8, 0x0F#8] { low with regs := { low.regs with a := 0x5A#8 } }
    (fun s => { s with pc := 0x0803#16, mem := poked s.mem [(0x0FFF, 0x5A#8)] }) = true := by decide

/-- V114: `lhld 0x0010`. -/
theorem test_v114_lhld :
    runsTo [0x2A#8, 0x10#8, 0x00#8] { full with mem := poked full.mem [(0x0010, 0x34#8), (0x0011, 0x12#8)] }
    (fun s => { s with regs := { s.regs with h := 0x12#8, l := 0x34#8 }, pc := 0x0003#16 }) = true := by decide

/-- V115: `lhld 0xFFFF`. -/
theorem test_v115_lhld :
    runsTo [0x2A#8, 0xFF#8, 0xFF#8] { full with mem := poked full.mem [(0xFFFF, 0xCD#8)] }
    (fun s => { s with regs := { s.regs with h := 0x2A#8, l := 0xCD#8 }, pc := 0x0003#16 }) = true := by decide

/-- V116: `shld 0x0020`. -/
theorem test_v116_shld :
    runsTo [0x22#8, 0x20#8, 0x00#8] { full with regs := { full.regs with h := 0xAB#8, l := 0xCD#8 } }
    (fun s => { s with pc := 0x0003#16, mem := poked s.mem [(0x0020, 0xCD#8), (0x0021, 0xAB#8)] }) = true := by decide

/-- V124: `shld 0x0FFF`. -/
theorem test_v124_shld :
    stopsWith [0x22#8, 0xFF#8, 0x0F#8] { low with regs := { low.regs with h := 0xAB#8, l := 0xCD#8 } } (.accessFault 0x1000#16) = true := by decide

/-- V117: `ldax b`. -/
theorem test_v117_ldax :
    runsTo [0x0A#8] { full with regs := { full.regs with b := 0x00#8, c := 0x30#8 }, mem := poked full.mem [(0x0030, 0x9C#8)] }
    (fun s => { s with regs := { s.regs with a := 0x9C#8 }, pc := 0x0001#16 }) = true := by decide

/-- V118: `ldax d`. -/
theorem test_v118_ldax :
    runsTo [0x1A#8] { full with regs := { full.regs with d := 0x01#8, e := 0x00#8 }, mem := poked full.mem [(0x0100, 0x42#8)] }
    (fun s => { s with regs := { s.regs with a := 0x42#8 }, pc := 0x0001#16 }) = true := by decide

/-- V119: `stax b`. -/
theorem test_v119_stax :
    runsTo [0x02#8] { full with regs := { full.regs with a := 0xE7#8, b := 0x02#8, c := 0x00#8 } }
    (fun s => { s with pc := 0x0001#16, mem := poked s.mem [(0x0200, 0xE7#8)] }) = true := by decide

/-- V126: `stax b`. -/
theorem test_v126_stax :
    stopsWith [0x02#8] { low with regs := { low.regs with a := 0x01#8, b := 0x07#8, c := 0xFF#8 } } (.accessFault 0x07FF#16) = true := by decide

/-- V121: `xchg`. -/
theorem test_v121_xchg :
    runsTo [0xEB#8] { full with regs := { full.regs with d := 0x11#8, e := 0x22#8, h := 0x33#8, l := 0x44#8 } }
    (fun s => { s with regs := { s.regs with d := 0x33#8, e := 0x44#8, h := 0x11#8, l := 0x22#8 }, pc := 0x0001#16 }) = true := by decide

/-- V201: `add b`. -/
theorem test_v201_add :
    runsTo [0x80#8] { full with regs := { full.regs with a := 0x2E#8, b := 0x74#8 } }
    (fun s => { s with regs := { s.regs with a := 0xA2#8 }, flags := { s := true, z := false, ac := true, p := false, cy := false }, pc := 0x0001#16 }) = true := by decide

/-- V202: `add b`. -/
theorem test_v202_add :
    runsTo [0x80#8] { full with regs := { full.regs with a := 0xFF#8, b := 0x01#8 } }
    (fun s => { s with regs := { s.regs with a := 0x00#8 }, flags := { s := false, z := true, ac := false, p := true, cy := true }, pc := 0x0001#16 }) = true := by decide

/-- V205: `adc c`. -/
theorem test_v205_adc :
    runsTo [0x89#8] { full with regs := { full.regs with a := 0x42#8, c := 0x3D#8 }, flags := { full.flags with cy := true } }
    (fun s => { s with regs := { s.regs with a := 0x80#8 }, flags := { s := true, z := false, ac := true, p := false, cy := false }, pc := 0x0001#16 }) = true := by decide

/-- V206: `adc b`. -/
theorem test_v206_adc :
    runsTo [0x88#8] { full with regs := { full.regs with a := 0xFF#8, b := 0xFF#8 }, flags := { full.flags with cy := true } }
    (fun s => { s with flags := { s := true, z := false, ac := true, p := true, cy := true }, pc := 0x0001#16 }) = true := by decide

/-- V207: `adi 4`. -/
theorem test_v207_adi :
    runsTo [0xC6#8, 0x04#8] { full with regs := { full.regs with a := 0x03#8 } }
    (fun s => { s with regs := { s.regs with a := 0x07#8 }, flags := { s := false, z := false, ac := false, p := false, cy := false }, pc := 0x0002#16 }) = true := by decide

/-- V208: `adi 0x07`. -/
theorem test_v208_adi :
    runsTo [0xC6#8, 0x07#8] { full with regs := { full.regs with a := 0x03#8 } }
    (fun s => { s with regs := { s.regs with a := 0x0A#8 }, flags := { s := false, z := false, ac := true, p := true, cy := false }, pc := 0x0002#16 }) = true := by decide

/-- V211: `aci 0xBE`. -/
theorem test_v211_aci :
    runsTo [0xCE#8, 0xBE#8] { full with regs := { full.regs with a := 0x56#8 }, flags := { full.flags with cy := true } }
    (fun s => { s with regs := { s.regs with a := 0x15#8 }, flags := { s := false, z := false, ac := true, p := false, cy := true }, pc := 0x0002#16 }) = true := by decide

/-- V212: `aci 0x00`. -/
theorem test_v212_aci :
    runsTo [0xCE#8, 0x00#8] { full with regs := { full.regs with a := 0xFF#8 }, flags := { full.flags with cy := true } }
    (fun s => { s with regs := { s.regs with a := 0x00#8 }, flags := { s := false, z := true, ac := false, p := true, cy := true }, pc := 0x0002#16 }) = true := by decide

/-- V213: `sub b`. -/
theorem test_v213_sub :
    runsTo [0x90#8] { full with regs := { full.regs with a := 0x3E#8, b := 0x3E#8 } }
    (fun s => { s with regs := { s.regs with a := 0x00#8 }, flags := { s := false, z := true, ac := false, p := true, cy := false }, pc := 0x0001#16 }) = true := by decide

/-- V214: `sub b`. -/
theorem test_v214_sub :
    runsTo [0x90#8] { full with regs := { full.regs with a := 0x00#8, b := 0x01#8 } }
    (fun s => { s with regs := { s.regs with a := 0xFF#8 }, flags := { s := true, z := false, ac := true, p := true, cy := true }, pc := 0x0001#16 }) = true := by decide

/-- V216: `sbb l`. -/
theorem test_v216_sbb :
    runsTo [0x9D#8] { full with regs := { full.regs with a := 0x04#8, l := 0x02#8 }, flags := { full.flags with cy := true } }
    (fun s => { s with regs := { s.regs with a := 0x01#8 }, flags := { s := false, z := false, ac := false, p := false, cy := false }, pc := 0x0001#16 }) = true := by decide

/-- V217: `sbb b`. -/
theorem test_v217_sbb :
    runsTo [0x98#8] { full with regs := { full.regs with a := 0x00#8, b := 0xFF#8 }, flags := { full.flags with cy := true } }
    (fun s => { s with flags := { s := false, z := true, ac := false, p := true, cy := true }, pc := 0x0001#16 }) = true := by decide

/-- V219: `sui 0x01`. -/
theorem test_v219_sui :
    runsTo [0xD6#8, 0x01#8] { full with regs := { full.regs with a := 0x00#8 } }
    (fun s => { s with regs := { s.regs with a := 0xFF#8 }, flags := { s := true, z := false, ac := true, p := true, cy := true }, pc := 0x0002#16 }) = true := by decide

/-- V220: `sui 0x0A`. -/
theorem test_v220_sui :
    runsTo [0xD6#8, 0x0A#8] { full with regs := { full.regs with a := 0x14#8 } }
    (fun s => { s with regs := { s.regs with a := 0x0A#8 }, flags := { s := false, z := false, ac := true, p := true, cy := false }, pc := 0x0002#16 }) = true := by decide

/-- V221: `inr c`. -/
theorem test_v221_inr :
    runsTo [0x0C#8] { full with regs := { full.regs with c := 0x99#8 }, flags := { full.flags with cy := true } }
    (fun s => { s with regs := { s.regs with c := 0x9A#8 }, flags := { s := true, z := false, ac := true, p := true, cy := true }, pc := 0x0001#16 }) = true := by decide

/-- V222: `inr c`. -/
theorem test_v222_inr :
    runsTo [0x0C#8] { full with regs := { full.regs with c := 0xFF#8 }, flags := { full.flags with cy := false } }
    (fun s => { s with regs := { s.regs with c := 0x00#8 }, flags := { s := false, z := true, ac := false, p := true, cy := false }, pc := 0x0001#16 }) = true := by decide

/-- V225: `dcr b`. -/
theorem test_v225_dcr :
    runsTo [0x05#8] { full with regs := { full.regs with b := 0x00#8 }, flags := { full.flags with cy := false } }
    (fun s => { s with regs := { s.regs with b := 0xFF#8 }, flags := { s := true, z := false, ac := true, p := true, cy := false }, pc := 0x0001#16 }) = true := by decide

/-- V226: `dcr h`. -/
theorem test_v226_dcr :
    runsTo [0x25#8] { full with regs := { full.regs with h := 0x0A#8 }, flags := { full.flags with cy := true } }
    (fun s => { s with regs := { s.regs with h := 0x09#8 }, flags := { s := false, z := false, ac := false, p := true, cy := true }, pc := 0x0001#16 }) = true := by decide

/-- V301: `ana b`. -/
theorem test_v301_ana :
    runsTo [0xA0#8] { full with regs := { full.regs with a := 0xFC#8, b := 0x0F#8 }, flags := { full.flags with cy := true } }
    (fun s => { s with regs := { s.regs with a := 0x0C#8 }, flags := { s := false, z := false, ac := true, p := true, cy := false }, pc := 0x0001#16 }) = true := by decide

/-- V302: `ana a`. -/
theorem test_v302_ana :
    runsTo [0xA7#8] { full with regs := { full.regs with a := 0x00#8 }, flags := { full.flags with cy := true } }
    (fun s => { s with flags := { s := false, z := true, ac := false, p := true, cy := false }, pc := 0x0001#16 }) = true := by decide

/-- V303: `ani 0xF0`. -/
theorem test_v303_ani :
    runsTo [0xE6#8, 0xF0#8] { full with regs := { full.regs with a := 0xFF#8 } }
    (fun s => { s with regs := { s.regs with a := 0xF0#8 }, flags := { s := true, z := false, ac := true, p := true, cy := false }, pc := 0x0002#16 }) = true := by decide

/-- V305: `ani 0x09`. -/
theorem test_v305_ani :
    runsTo [0xE6#8, 0x09#8] { full with regs := { full.regs with a := 0x0F#8 } }
    (fun s => { s with regs := { s.regs with a := 0x09#8 }, flags := { s := false, z := false, ac := false, p := true, cy := false }, pc := 0x0002#16 }) = true := by decide

/-- V306: `ora c`. -/
theorem test_v306_ora :
    runsTo [0xB1#8] { full with regs := { full.regs with a := 0x33#8, c := 0x0F#8 }, flags := { full.flags with cy := true } }
    (fun s => { s with regs := { s.regs with a := 0x3F#8 }, flags := { s := false, z := false, ac := true, p := true, cy := false }, pc := 0x0001#16 }) = true := by decide

/-- V307: `ora a`. -/
theorem test_v307_ora :
    runsTo [0xB7#8] { full with regs := { full.regs with a := 0x00#8 }, flags := { full.flags with s := true, cy := true } }
    (fun s => { s with flags := { s := false, z := true, ac := false, p := true, cy := false }, pc := 0x0001#16 }) = true := by decide

/-- V308: `xra a`. -/
theorem test_v308_xra :
    runsTo [0xAF#8] { full with regs := { full.regs with a := 0xA5#8 }, flags := { full.flags with cy := true } }
    (fun s => { s with regs := { s.regs with a := 0x00#8 }, flags := { s := false, z := true, ac := false, p := true, cy := false }, pc := 0x0001#16 }) = true := by decide

/-- V309: `xra b`. -/
theorem test_v309_xra :
    runsTo [0xA8#8] { full with regs := { full.regs with a := 0xFF#8, b := 0x0F#8 }, flags := { full.flags with cy := true } }
    (fun s => { s with regs := { s.regs with a := 0xF0#8 }, flags := { s := true, z := false, ac := true, p := true, cy := false }, pc := 0x0001#16 }) = true := by decide

/-- V310: `cma`. -/
theorem test_v310_cma :
    runsTo [0x2F#8] { full with regs := { full.regs with a := 0x51#8 } }
    (fun s => { s with regs := { s.regs with a := 0xAE#8 }, flags := { s := false, z := false, ac := false, p := false, cy := false }, pc := 0x0001#16 }) = true := by decide

/-- V311: `cma`. -/
theorem test_v311_cma :
    runsTo [0x2F#8] { full with regs := { full.regs with a := 0xFF#8 }, flags := { s := true, z := true, ac := true, p := true, cy := true } }
    (fun s => { s with regs := { s.regs with a := 0x00#8 }, flags := { s := true, z := true, ac := true, p := true, cy := true }, pc := 0x0001#16 }) = true := by decide

/-- V312: `cmc`. -/
theorem test_v312_cmc :
    runsTo [0x3F#8] { full with flags := { full.flags with cy := false } }
    (fun s => { s with flags := { s := false, z := false, ac := false, p := false, cy := true }, pc := 0x0001#16 }) = true := by decide

/-- V313: `cmc`. -/
theorem test_v313_cmc :
    runsTo [0x3F#8] { full with regs := { full.regs with a := 0x12#8 }, flags := { s := true, z := true, ac := true, p := true, cy := true } }
    (fun s => { s with flags := { s := true, z := true, ac := true, p := true, cy := false }, pc := 0x0001#16 }) = true := by decide

/-- V401: `rlc`. -/
theorem test_v401_rlc :
    runsTo [0x07#8] { full with regs := { full.regs with a := 0xF2#8 }, flags := { cy := false, s := true, z := true, ac := true, p := true } }
    (fun s => { s with regs := { s.regs with a := 0xE5#8 }, flags := { s := true, z := true, ac := true, p := true, cy := true }, pc := 0x0001#16 }) = true := by decide

/-- V402: `rlc`. -/
theorem test_v402_rlc :
    runsTo [0x07#8] { full with regs := { full.regs with a := 0x00#8 }, flags := { cy := true, s := true, z := true, ac := true, p := true } }
    (fun s => { s with flags := { s := true, z := true, ac := true, p := true, cy := false }, pc := 0x0001#16 }) = true := by decide

/-- V404: `rrc`. -/
theorem test_v404_rrc :
    runsTo [0x0F#8] { full with regs := { full.regs with a := 0xF2#8 }, flags := { cy := true, s := true, z := true, ac := true, p := true } }
    (fun s => { s with regs := { s.regs with a := 0x79#8 }, flags := { s := true, z := true, ac := true, p := true, cy := false }, pc := 0x0001#16 }) = true := by decide

/-- V405: `rrc`. -/
theorem test_v405_rrc :
    runsTo [0x0F#8] { full with regs := { full.regs with a := 0x01#8 }, flags := { cy := false, s := true, z := true, ac := true, p := true } }
    (fun s => { s with regs := { s.regs with a := 0x80#8 }, flags := { s := true, z := true, ac := true, p := true, cy := true }, pc := 0x0001#16 }) = true := by decide

/-- V406: `ral`. -/
theorem test_v406_ral :
    runsTo [0x17#8] { full with regs := { full.regs with a := 0xB5#8 }, flags := { cy := false, s := true, z := true, ac := true, p := true } }
    (fun s => { s with regs := { s.regs with a := 0x6A#8 }, flags := { s := true, z := true, ac := true, p := true, cy := true }, pc := 0x0001#16 }) = true := by decide

/-- V407: `ral`. -/
theorem test_v407_ral :
    runsTo [0x17#8] { full with regs := { full.regs with a := 0x00#8 }, flags := { cy := true, s := true, z := true, ac := true, p := true } }
    (fun s => { s with regs := { s.regs with a := 0x01#8 }, flags := { s := true, z := true, ac := true, p := true, cy := false }, pc := 0x0001#16 }) = true := by decide

/-- V409: `rar`. -/
theorem test_v409_rar :
    runsTo [0x1F#8] { full with regs := { full.regs with a := 0x6A#8 }, flags := { cy := true, s := true, z := true, ac := true, p := true } }
    (fun s => { s with regs := { s.regs with a := 0xB5#8 }, flags := { s := true, z := true, ac := true, p := true, cy := false }, pc := 0x0001#16 }) = true := by decide

/-- V411: `rar`. -/
theorem test_v411_rar :
    runsTo [0x1F#8] { full with regs := { full.regs with a := 0x00#8 }, flags := { cy := true, s := true, z := true, ac := true, p := true } }
    (fun s => { s with regs := { s.regs with a := 0x80#8 }, flags := { s := true, z := true, ac := true, p := true, cy := false }, pc := 0x0001#16 }) = true := by decide

/-- V503: `cmp b`. -/
theorem test_v503_cmp :
    runsTo [0xB8#8] { full with regs := { full.regs with a := 0x02#8, b := 0x05#8 } }
    (fun s => { s with flags := { s := true, z := false, ac := true, p := false, cy := true }, pc := 0x0001#16 }) = true := by decide

/-- V505: `cmp e`. -/
theorem test_v505_cmp :
    runsTo [0xBB#8] { full with regs := { full.regs with a := 0x80#8, e := 0x01#8 } }
    (fun s => { s with flags := { s := false, z := false, ac := true, p := false, cy := false }, pc := 0x0001#16 }) = true := by decide

/-- V506: `cpi 0x40`. -/
theorem test_v506_cpi :
    runsTo [0xFE#8, 0x40#8] { full with regs := { full.regs with a := 0x3F#8 } }
    (fun s => { s with flags := { s := true, z := false, ac := true, p := true, cy := true }, pc := 0x0002#16 }) = true := by decide

/-- V508: `cpi 0xFF`. -/
theorem test_v508_cpi :
    runsTo [0xFE#8, 0xFF#8] { full with regs := { full.regs with a := 0x00#8 } }
    (fun s => { s with flags := { s := false, z := false, ac := false, p := false, cy := true }, pc := 0x0002#16 }) = true := by decide

/-- V601: `jmp 0x1234`. -/
theorem test_v601_jmp :
    runsTo [0xC3#8, 0x34#8, 0x12#8] { full with sp := 0x0200#16, pc := 0x0100#16 }
    (fun s => { s with pc := 0x1234#16 }) = true := by decide

/-- V641: `jmp 0x2000`. -/
theorem test_v641_jmp :
    runsTo [0xC3#8, 0x00#8, 0x20#8] low
    (fun s => { s with pc := 0x2000#16 }) = true := by decide

/-- V603: `jnz 0x0ABC`. -/
theorem test_v603_jnz :
    runsTo [0xC2#8, 0xBC#8, 0x0A#8] { full with flags := { full.flags with z := false }, sp := 0x0200#16, pc := 0x0100#16 }
    (fun s => { s with pc := 0x0ABC#16 }) = true := by decide

/-- V604: `jnz 0x0ABC`. -/
theorem test_v604_jnz :
    runsTo [0xC2#8, 0xBC#8, 0x0A#8] { full with flags := { full.flags with z := true }, sp := 0x0200#16, pc := 0x0100#16 }
    (fun s => { s with pc := 0x0103#16 }) = true := by decide

/-- V605: `jz 0x0ABC`. -/
theorem test_v605_jz :
    runsTo [0xCA#8, 0xBC#8, 0x0A#8] { full with flags := { full.flags with z := true }, sp := 0x0200#16, pc := 0x0100#16 }
    (fun s => { s with pc := 0x0ABC#16 }) = true := by decide

/-- V606: `jz 0x0ABC`. -/
theorem test_v606_jz :
    runsTo [0xCA#8, 0xBC#8, 0x0A#8] { full with flags := { full.flags with z := false }, sp := 0x0200#16, pc := 0x0100#16 }
    (fun s => { s with pc := 0x0103#16 }) = true := by decide

/-- V607: `jnc 0x0ABC`. -/
theorem test_v607_jnc :
    runsTo [0xD2#8, 0xBC#8, 0x0A#8] { full with flags := { full.flags with cy := false }, sp := 0x0200#16, pc := 0x0100#16 }
    (fun s => { s with pc := 0x0ABC#16 }) = true := by decide

/-- V608: `jnc 0x0ABC`. -/
theorem test_v608_jnc :
    runsTo [0xD2#8, 0xBC#8, 0x0A#8] { full with flags := { full.flags with cy := true }, sp := 0x0200#16, pc := 0x0100#16 }
    (fun s => { s with pc := 0x0103#16 }) = true := by decide

/-- V609: `jc 0x0ABC`. -/
theorem test_v609_jc :
    runsTo [0xDA#8, 0xBC#8, 0x0A#8] { full with flags := { full.flags with cy := true }, sp := 0x0200#16, pc := 0x0100#16 }
    (fun s => { s with pc := 0x0ABC#16 }) = true := by decide

/-- V610: `jc 0x0ABC`. -/
theorem test_v610_jc :
    runsTo [0xDA#8, 0xBC#8, 0x0A#8] { full with flags := { full.flags with cy := false }, sp := 0x0200#16, pc := 0x0100#16 }
    (fun s => { s with pc := 0x0103#16 }) = true := by decide

/-- V611: `jpo 0x0ABC`. -/
theorem test_v611_jpo :
    runsTo [0xE2#8, 0xBC#8, 0x0A#8] { full with flags := { full.flags with p := false }, sp := 0x0200#16, pc := 0x0100#16 }
    (fun s => { s with pc := 0x0ABC#16 }) = true := by decide

/-- V612: `jpo 0x0ABC`. -/
theorem test_v612_jpo :
    runsTo [0xE2#8, 0xBC#8, 0x0A#8] { full with flags := { full.flags with p := true }, sp := 0x0200#16, pc := 0x0100#16 }
    (fun s => { s with pc := 0x0103#16 }) = true := by decide

/-- V613: `jpe 0x0ABC`. -/
theorem test_v613_jpe :
    runsTo [0xEA#8, 0xBC#8, 0x0A#8] { full with flags := { full.flags with p := true }, sp := 0x0200#16, pc := 0x0100#16 }
    (fun s => { s with pc := 0x0ABC#16 }) = true := by decide

/-- V614: `jpe 0x0ABC`. -/
theorem test_v614_jpe :
    runsTo [0xEA#8, 0xBC#8, 0x0A#8] { full with flags := { full.flags with p := false }, sp := 0x0200#16, pc := 0x0100#16 }
    (fun s => { s with pc := 0x0103#16 }) = true := by decide

/-- V615: `jp 0x0ABC`. -/
theorem test_v615_jp :
    runsTo [0xF2#8, 0xBC#8, 0x0A#8] { full with flags := { full.flags with s := false }, sp := 0x0200#16, pc := 0x0100#16 }
    (fun s => { s with pc := 0x0ABC#16 }) = true := by decide

/-- V616: `jp 0x0ABC`. -/
theorem test_v616_jp :
    runsTo [0xF2#8, 0xBC#8, 0x0A#8] { full with flags := { full.flags with s := true }, sp := 0x0200#16, pc := 0x0100#16 }
    (fun s => { s with pc := 0x0103#16 }) = true := by decide

/-- V617: `jm 0x0ABC`. -/
theorem test_v617_jm :
    runsTo [0xFA#8, 0xBC#8, 0x0A#8] { full with flags := { full.flags with s := true }, sp := 0x0200#16, pc := 0x0100#16 }
    (fun s => { s with pc := 0x0ABC#16 }) = true := by decide

/-- V618: `jm 0x0ABC`. -/
theorem test_v618_jm :
    runsTo [0xFA#8, 0xBC#8, 0x0A#8] { full with flags := { full.flags with s := false }, sp := 0x0200#16, pc := 0x0100#16 }
    (fun s => { s with pc := 0x0103#16 }) = true := by decide

/-- V619: `call 0x0ABC`. -/
theorem test_v619_call :
    runsTo [0xCD#8, 0xBC#8, 0x0A#8] { full with sp := 0x0200#16, pc := 0x0100#16 }
    (fun s => { s with pc := 0x0ABC#16, sp := 0x01FE#16, mem := poked s.mem [(0x01FE, 0x03#8), (0x01FF, 0x01#8)] }) = true := by decide

/-- V639: `call 0x0810`. -/
theorem test_v639_call :
    stopsWith [0xCD#8, 0x10#8, 0x08#8] low (.accessFault 0x07FF#16) = true := by decide

/-- V620: `cnz 0x0ABC`. -/
theorem test_v620_cnz :
    runsTo [0xC4#8, 0xBC#8, 0x0A#8] { full with flags := { full.flags with z := false }, sp := 0x0200#16, pc := 0x0100#16 }
    (fun s => { s with pc := 0x0ABC#16, sp := 0x01FE#16, mem := poked s.mem [(0x01FE, 0x03#8), (0x01FF, 0x01#8)] }) = true := by decide

/-- V621: `cnz 0x0ABC`. -/
theorem test_v621_cnz :
    runsTo [0xC4#8, 0xBC#8, 0x0A#8] { full with flags := { full.flags with z := true }, sp := 0x0200#16, pc := 0x0100#16 }
    (fun s => { s with pc := 0x0103#16 }) = true := by decide

/-- V622: `cz 0x0ABC`. -/
theorem test_v622_cz :
    runsTo [0xCC#8, 0xBC#8, 0x0A#8] { full with flags := { full.flags with z := true }, sp := 0x0200#16, pc := 0x0100#16 }
    (fun s => { s with pc := 0x0ABC#16, sp := 0x01FE#16, mem := poked s.mem [(0x01FE, 0x03#8), (0x01FF, 0x01#8)] }) = true := by decide

/-- V623: `cz 0x0ABC`. -/
theorem test_v623_cz :
    runsTo [0xCC#8, 0xBC#8, 0x0A#8] { full with flags := { full.flags with z := false }, sp := 0x0200#16, pc := 0x0100#16 }
    (fun s => { s with pc := 0x0103#16 }) = true := by decide

/-- V624: `cnc 0x0ABC`. -/
theorem test_v624_cnc :
    runsTo [0xD4#8, 0xBC#8, 0x0A#8] { full with flags := { full.flags with cy := false }, sp := 0x0200#16, pc := 0x0100#16 }
    (fun s => { s with pc := 0x0ABC#16, sp := 0x01FE#16, mem := poked s.mem [(0x01FE, 0x03#8), (0x01FF, 0x01#8)] }) = true := by decide

/-- V625: `cnc 0x0ABC`. -/
theorem test_v625_cnc :
    runsTo [0xD4#8, 0xBC#8, 0x0A#8] { full with flags := { full.flags with cy := true }, sp := 0x0200#16, pc := 0x0100#16 }
    (fun s => { s with pc := 0x0103#16 }) = true := by decide

/-- V626: `cc 0x0ABC`. -/
theorem test_v626_cc :
    runsTo [0xDC#8, 0xBC#8, 0x0A#8] { full with flags := { full.flags with cy := true }, sp := 0x0200#16, pc := 0x0100#16 }
    (fun s => { s with pc := 0x0ABC#16, sp := 0x01FE#16, mem := poked s.mem [(0x01FE, 0x03#8), (0x01FF, 0x01#8)] }) = true := by decide

/-- V627: `cc 0x0ABC`. -/
theorem test_v627_cc :
    runsTo [0xDC#8, 0xBC#8, 0x0A#8] { full with flags := { full.flags with cy := false }, sp := 0x0200#16, pc := 0x0100#16 }
    (fun s => { s with pc := 0x0103#16 }) = true := by decide

/-- V628: `cpo 0x0ABC`. -/
theorem test_v628_cpo :
    runsTo [0xE4#8, 0xBC#8, 0x0A#8] { full with flags := { full.flags with p := false }, sp := 0x0200#16, pc := 0x0100#16 }
    (fun s => { s with pc := 0x0ABC#16, sp := 0x01FE#16, mem := poked s.mem [(0x01FE, 0x03#8), (0x01FF, 0x01#8)] }) = true := by decide

/-- V629: `cpo 0x0ABC`. -/
theorem test_v629_cpo :
    runsTo [0xE4#8, 0xBC#8, 0x0A#8] { full with flags := { full.flags with p := true }, sp := 0x0200#16, pc := 0x0100#16 }
    (fun s => { s with pc := 0x0103#16 }) = true := by decide

/-- V630: `cpe 0x0ABC`. -/
theorem test_v630_cpe :
    runsTo [0xEC#8, 0xBC#8, 0x0A#8] { full with flags := { full.flags with p := true }, sp := 0x0200#16, pc := 0x0100#16 }
    (fun s => { s with pc := 0x0ABC#16, sp := 0x01FE#16, mem := poked s.mem [(0x01FE, 0x03#8), (0x01FF, 0x01#8)] }) = true := by decide

/-- V631: `cpe 0x0ABC`. -/
theorem test_v631_cpe :
    runsTo [0xEC#8, 0xBC#8, 0x0A#8] { full with flags := { full.flags with p := false }, sp := 0x0200#16, pc := 0x0100#16 }
    (fun s => { s with pc := 0x0103#16 }) = true := by decide

/-- V632: `cp 0x0ABC`. -/
theorem test_v632_cp :
    runsTo [0xF4#8, 0xBC#8, 0x0A#8] { full with flags := { full.flags with s := false }, sp := 0x0200#16, pc := 0x0100#16 }
    (fun s => { s with pc := 0x0ABC#16, sp := 0x01FE#16, mem := poked s.mem [(0x01FE, 0x03#8), (0x01FF, 0x01#8)] }) = true := by decide

/-- V633: `cp 0x0ABC`. -/
theorem test_v633_cp :
    runsTo [0xF4#8, 0xBC#8, 0x0A#8] { full with flags := { full.flags with s := true }, sp := 0x0200#16, pc := 0x0100#16 }
    (fun s => { s with pc := 0x0103#16 }) = true := by decide

/-- V634: `cm 0x0ABC`. -/
theorem test_v634_cm :
    runsTo [0xFC#8, 0xBC#8, 0x0A#8] { full with flags := { full.flags with s := true }, sp := 0x0200#16, pc := 0x0100#16 }
    (fun s => { s with pc := 0x0ABC#16, sp := 0x01FE#16, mem := poked s.mem [(0x01FE, 0x03#8), (0x01FF, 0x01#8)] }) = true := by decide

/-- V635: `cm 0x0ABC`. -/
theorem test_v635_cm :
    runsTo [0xFC#8, 0xBC#8, 0x0A#8] { full with flags := { full.flags with s := false }, sp := 0x0200#16, pc := 0x0100#16 }
    (fun s => { s with pc := 0x0103#16 }) = true := by decide

/-- V636: `ret`. -/
theorem test_v636_ret :
    runsTo [0xC9#8] { full with sp := 0x01FE#16, pc := 0x0100#16, mem := poked full.mem [(0x01FE, 0x03#8), (0x01FF, 0x01#8)] }
    (fun s => { s with pc := 0x0103#16, sp := 0x0200#16 }) = true := by decide

/-- V643: `ret`. -/
theorem test_v643_ret :
    stopsWith [0xC9#8] { low with sp := 0x0FFF#16 } (.accessFault 0x1000#16) = true := by decide

/-- V703: `push h`. -/
theorem test_v703_push :
    runsTo [0xE5#8] { full with regs := { full.regs with h := 0x01#8, l := 0x02#8 }, sp := 0x0001#16 }
    (fun s => { s with pc := 0x0001#16, sp := 0xFFFF#16, mem := poked s.mem [(0x0000, 0x01#8), (0xFFFF, 0x02#8)] }) = true := by decide

/-- V709: `push b`. -/
theorem test_v709_push :
    stopsWith [0xC5#8] { low with regs := { low.regs with b := 0x01#8, c := 0x02#8 }, sp := 0x0801#16 } (.accessFault 0x07FF#16) = true := by decide

/-- V705: `pop d`. -/
theorem test_v705_pop :
    runsTo [0xD1#8] { full with sp := 0x00FE#16, mem := poked full.mem [(0x00FE, 0x34#8), (0x00FF, 0x12#8)] }
    (fun s => { s with regs := { s.regs with d := 0x12#8, e := 0x34#8 }, pc := 0x0001#16, sp := 0x0100#16 }) = true := by decide

/-- V706: `pop b`. -/
theorem test_v706_pop :
    runsTo [0xC1#8] { full with sp := 0xFFFF#16, mem := poked full.mem [(0xFFFF, 0x78#8)] }
    (fun s => { s with regs := { s.regs with b := 0xC1#8, c := 0x78#8 }, pc := 0x0001#16, sp := 0x0001#16 }) = true := by decide

/-- V809: `hlt`. -/
theorem test_v809_hlt :
    runsTo [0x76#8] { full with regs := { full.regs with a := 0x12#8 }, flags := { s := true, z := true, ac := true, p := true, cy := true } }
    (fun s => { s with pc := 0x0001#16, halted := true }) = true := by decide

/-- V810: `hlt`. -/
theorem test_v810_hlt :
    runsTo [0x76#8] { low with pc := 0x0FFF#16 }
    (fun s => { s with pc := 0x1000#16, halted := true }) = true := by decide

/-- V801. -/
theorem test_v801_byte :
    stopsWith [0x00#8] full (.decodeError 0x00#8) = true := by decide

/-- V802. -/
theorem test_v802_byte :
    stopsWith [0xF5#8] { full with sp := 0x0100#16 } (.decodeError 0xF5#8) = true := by decide

/-- V806. -/
theorem test_v806_byte :
    stopsWith [0x00#8] { low with pc := 0x0FFF#16 } (.decodeError 0x00#8) = true := by decide

/-- V807. -/
theorem test_v807_byte :
    stopsWith [0xC3#8] { low with pc := 0x0FFF#16 } (.accessFault 0x1000#16) = true := by decide

/-- V812. -/
theorem test_v812_byte :
    stopsWith [] { low with halted := true, pc := 0x2000#16 } .halted = true := by decide

/-! ## Witnesses: for every statement with hypotheses, a state and operands that meet them -/

theorem witness_DecodedBytesAreTheEncoding :
    decode [0x21#8, 0x34#8, 0x12#8, 0x76#8] = .ok (.lxi (.pair .hl) 0x1234#16, [0x76#8]) := by decide

theorem witness_TheEightyUnrecognisedBytesRaiseDecodeError :
    (full.halted = false ∧ full.readByte full.pc = .ok 0x00#8 ∧ (0x00#8 : Byte).toNat ∈ unrecognisedBytes) ∧
    ((atPc [0xFF#8] top).halted = false ∧ (atPc [0xFF#8] top).readByte (atPc [0xFF#8] top).pc = .ok 0xFF#8 ∧
      (0xFF#8 : Byte).toNat ∈ unrecognisedBytes) := by decide

theorem witness_RecognisedOpcodeTakesEveryOperand :
    (0x01#8 : Byte).toNat ∉ unrecognisedBytes ∧ (0xFE#8 : Byte).toNat ∉ unrecognisedBytes := by decide

theorem witness_ResetAndLoadSetEveryPieceOfState :
    inWindow low.window 0x0800#16 = true ∧ inWindow low.window 0x0FFF#16 = true ∧ top.window.Admissible ∧
    [0xAB#8].length = top.window.size ∧ [(0xAB#8 : Byte)][0]? = some 0xAB#8 := by decide

theorem witness_ResetSatisfiesInvariant :
    full.window.Admissible ∧ low.window.Admissible ∧ top.window.Admissible := by decide

/-- `sta 0x0FFF` into the last cell of the window. -/
theorem witness_StepKeepsInvariant :
    (atPc [0x32#8, 0xFF#8, 0x0F#8] low).Inv ∧ ∃ t, step (atPc [0x32#8, 0xFF#8, 0x0F#8] low) = .next t :=
  ⟨by decide, exists_next (by decide)⟩

theorem witness_EveryReachableStateSatisfiesInvariant :
    low.window.Admissible ∧ Reachable low.window (serve (.poke (.cell (.index 0)) 0x76) low).2 :=
  ⟨by decide, .request _ .reset⟩

/-- `jnz 0x0123` whose bytes wrap from 0xFFFE to 0x0000. -/
theorem witness_StepRunsTheDecodedInstruction :
    let s := atPc [0xC2#8, 0x23#8, 0x01#8] { full with pc := 0xFFFE#16 }
    s.halted = false ∧ decode [0xC2#8, 0x23#8, 0x01#8] = .ok (.jnz 0x0123#16, []) ∧
    ∀ (k : Nat) (v : Byte), [0xC2#8, 0x23#8, 0x01#8][k]? = some v →
      s.readByte (s.pc + BitVec.ofNat 16 k) = .ok v := by
  refine ⟨by decide, by decide, fun k v h => ?_⟩
  match k, h with
  | 0, h => cases h; decide
  | 1, h => cases h; decide
  | 2, h => cases h; decide
  | n + 3, h => cases h

theorem witness_HaltedStepDoesNothing :
    { full with halted := true }.halted = true ∧ (serve .reset { full with halted := true }).2.halted = false ∧
    (serve (.load [0x76#8]) { top with halted := true }).2.halted = false := by decide

theorem witness_NoStepLeavesAHaltedState :
    Steps { full with halted := true } { full with halted := true } ∧ NormalEnd { full with halted := true } :=
  ⟨.refl _, rfl⟩

/-- The four failures: `pc` outside; an unrecognised byte in the last cell; a two-byte and a three-byte opcode there; a
three-byte opcode one before. -/
theorem witness_FetchFailuresComeInStepOrder :
    ({ low with pc := 0x1000#16 }.halted = false ∧ inWindow low.window 0x1000#16 = false) ∧
    ({ low with pc := 0x0FFF#16 }.readByte 0x0FFF#16 = .ok 0x00#8 ∧ decodeOp 0x00#8 = none) ∧
    ((atPc [0x3E#8] { low with pc := 0x0FFF#16 }).readByte 0x0FFF#16 = .ok 0x3E#8 ∧
      inWindow low.window (0x0FFF#16 + 1#16) = false) ∧
    ((atPc [0xC3#8] { low with pc := 0x0FFE#16 }).readByte 0x0FFE#16 = .ok 0xC3#8 ∧
      inWindow low.window (0x0FFE#16 + 1#16) = true ∧ inWindow low.window (0x0FFE#16 + 2#16) = false) := by decide
theorem witness_FetchFailuresComeInStepOrder_templates :
    (∃ t, decodeOp 0x3E#8 = some t ∧ 2 ≤ t.len) ∧ ∃ t, decodeOp 0xC3#8 = some t ∧ t.len = 3 :=
  ⟨⟨_, rfl, by decide⟩, ⟨_, rfl, by decide⟩⟩

theorem witness_FailingStepChangesNothing :
    (serve .step full).1 ≠ .ok ∧ (serve .step { low with pc := 0x07FF#16 }).1 ≠ .ok ∧
    (serve .step { full with halted := true }).1 ≠ .ok := by decide

theorem witness_StepFailsOnlyAsTheSpecSays :
    step { full with halted := true } = .fault .halted ∧ step full = .fault (.decodeError 0x00#8) ∧
    step { low with pc := 0x07FF#16 } = .fault (.accessFault 0x07FF#16) := ⟨rfl, rfl, rfl⟩

/-- `push` in the first two cells of the window; the second byte below the window; the first one below it. -/
theorem witness_InstructionCompletesWhenItsAccessesAreInside :
    accesses (.push .bc) { low with sp := 0x0802#16 } = [0x0801#16, 0x0800#16] ∧
    (∀ addr ∈ [(0x0801#16 : Word), 0x0800#16], inWindow low.window addr = true) ∧
    accesses (.push .bc) { low with sp := 0x0801#16 } = [0x0800#16] ++ 0x07FF#16 :: [] ∧
    (∀ x ∈ [(0x0800#16 : Word)], inWindow low.window x = true) ∧
    accesses (.push .bc) low = [] ++ 0x07FF#16 :: [0x07FE#16] ∧ inWindow low.window 0x07FF#16 = false :=
  ⟨rfl, List.forall_mem_cons.2 ⟨by decide, List.forall_mem_singleton.2 (by decide)⟩, rfl,
    List.forall_mem_singleton.2 (by decide), rfl, by decide⟩

theorem witness_InstructionsKeepOtherRegisters :
    (∃ t, exec (.lda 0x0FFF#16) low = .next t) ∧ Reg.b ∉ registersWritten (.lda 0x0FFF#16) ∧
    (∃ t, exec .xchg low = .next t) ∧ Reg.a ∉ registersWritten .xchg :=
  ⟨exists_next (by decide), by decide, exists_next (by decide), by decide⟩

theorem witness_InstructionsKeepOtherFlags :
    (∃ t, exec (.inr .b) low = .next t) ∧ FlagName.cy ∉ flagsWritten (.inr .b) ∧ (∃ t, exec (.xra .a) low = .next t) ∧
    (∃ t, exec (.ani 0xFF#8) low = .next t) ∧ ∃ t, exec .cmc low = .next t :=
  ⟨exists_next (by decide), by decide, exists_next (by decide), exists_next (by decide), exists_next (by decide)⟩

/-- `call` with `SP` = 0x0001: the bytes go to 0x0000 and 0xFFFF. -/
theorem witness_InstructionsKeepOtherMemory :
    (∃ t, exec (.call 0x0020#16) { full with sp := 0x0001#16 } = .next t) ∧
    0x0001#16 ∉ storesTo (.call 0x0020#16) { full with sp := 0x0001#16 } ∧
    storesTo (.call 0x0020#16) { full with sp := 0x0001#16 } = [0x0000#16, 0xFFFF#16] :=
  ⟨exists_next (by decide), by decide, rfl⟩

theorem witness_ProgramCounterAfterEveryInstruction :
    (∃ t, exec (.jmp 0xFFFF#16) low = .next t) ∧ jumpTarget (.jmp 0xFFFF#16) = some 0xFFFF#16 ∧
    taken (.jmp 0xFFFF#16) low = true ∧ (∃ t, exec .ret { full with sp := 0xFFFF#16 } = .next t) ∧
    (∃ t, exec (.cz 0x0020#16) { low with pc := 0xFFFE#16 } = .next t) ∧
    taken (.cz 0x0020#16) { low with pc := 0xFFFE#16 } = false ∧ (∃ t, exec .hlt { low with pc := 0xFFFF#16 } = .next t) ∧
    jumpTarget .hlt = none ∧ callTarget .hlt = none :=
  ⟨exists_next (by decide), rfl, rfl, exists_next (by decide), exists_next (by decide), rfl, exists_next (by decide), rfl, rfl⟩

theorem witness_StackPointerAfterEveryInstruction :
    (∃ t, exec (.lxi .sp 0xFFFF#16) low = .next t) ∧ (∃ t, exec (.push .hl) { full with sp := 0x0001#16 } = .next t) ∧
    (∃ t, exec (.pop .hl) { full with sp := 0xFFFF#16 } = .next t) ∧ ∃ t, exec (.cnz 0x0020#16) full = .next t :=
  ⟨exists_next (by decide), exists_next (by decide), exists_next (by decide), exists_next (by decide)⟩

theorem witness_OnlyHltWritesHalted : (∃ t, exec .hlt low = .next t) ∧ ∃ t, exec .cma low = .next t :=
  ⟨exists_next (by decide), exists_next (by decide)⟩

/-- Both branches, at the first and last cell and one outside each. -/
theorem witness_AccessOutsideTheWindowFaults :
    low.window.Admissible ∧ top.window.Admissible ∧
    low.readByte 0x0800#16 = .ok 0x00#8 ∧ low.readByte 0x0FFF#16 = .ok 0x00#8 ∧ top.readByte 0xFFFF#16 = .ok 0x00#8 ∧
    low.readByte 0x07FF#16 = .error (.accessFault 0x07FF#16) ∧
    low.readByte 0x1000#16 = .error (.accessFault 0x1000#16) ∧
    top.readByte 0x0000#16 = .error (.accessFault 0x0000#16) := by decide

theorem witness_ReadReturnsTheLastWrite :
    Memory.wf low.mem ∧ (∃ t, low.writeByte 0x0FFF#16 0xAB#8 = .ok t) ∧ ∃ t, low.writeByte 0x0800#16 0x00#8 = .ok t :=
  ⟨by decide, ⟨_, rfl⟩, ⟨_, rfl⟩⟩

/-- First byte outside (the second inside), second outside, both inside, and both inside across the wrap. -/
theorem witness_WordAccessIsTwoByteAccesses :
    Memory.wf low.mem ∧ inWindow low.window 0x07FF#16 = false ∧
    (inWindow low.window 0x0FFF#16 = true ∧ inWindow low.window (0x0FFF#16 + 1#16) = false) ∧
    (inWindow low.window 0x0FFE#16 = true ∧ inWindow low.window (0x0FFE#16 + 1#16) = true) ∧
    inWindow full.window 0xFFFF#16 = true ∧ inWindow full.window (0xFFFF#16 + 1#16) = true := by decide

/-- `sta` of a `hlt` byte to 0x0000, where the next fetch wraps to. -/
theorem witness_StoredInstructionRunsNext :
    let s : State := { full with regs := { full.regs with a := 0x76#8 }, pc := 0xFFFD#16 }
    Memory.wf s.mem ∧ s.halted = false ∧ inWindow s.window (s.pc + 3#16) = true ∧ encode .hlt = [s.regs.a] := by decide

theorem witness_LoadsReadMemory :
    low.readByte 0x0FFF#16 = .ok 0x00#8 ∧ inWindow low.window 0x1000#16 = false ∧
    (low.readByte 0x0FFE#16 = .ok 0x00#8 ∧ low.readByte (0x0FFE#16 + 1#16) = .ok 0x00#8) ∧
    (inWindow low.window 0x0FFF#16 = true ∧ inWindow low.window (0x0FFF#16 + 1#16) = false) ∧
    full.readByte (full.regs.b ++ full.regs.c) = .ok 0x00#8 ∧ inWindow low.window (low.regs.d ++ low.regs.e) = false := by
  decide

theorem witness_StoresWriteMemory :
    Memory.wf low.mem ∧ inWindow low.window 0x0FFF#16 = true ∧ inWindow low.window 0x1000#16 = false ∧
    (inWindow low.window 0x0FFE#16 = true ∧ inWindow low.window (0x0FFE#16 + 1#16) = true) ∧
    (inWindow low.window 0x0FFF#16 = true ∧ inWindow low.window (0x0FFF#16 + 1#16) = false) ∧
    inWindow full.window (full.regs.b ++ full.regs.c) = true ∧ inWindow low.window (low.regs.d ++ low.regs.e) = false := by
  decide

/-- 0xFF counts up to 0x00, 0x00 counts down to 0xFF. -/
theorem witness_IncrementAndDecrementKeepCarry :
    let s : State := { full with regs := { full.regs with c := 0xFF#8 } }
    (0x00#8 = BitVec.ofNat 8 ((s.regs.get .c).toNat + 1) ∧ 0xFE#8 = BitVec.ofNat 8 ((s.regs.get .c).toNat + 255)) ∧
    0xFF#8 = BitVec.ofNat 8 ((s.regs.get .b).toNat + 255) := by decide

theorem witness_RotatesMoveOneBit :
    (255 : Nat) = { full with regs := { full.regs with a := 0xFF#8 } }.regs.a.toNat ∧ (0 : Nat) = full.regs.a.toNat := by
  decide

theorem witness_FlagsAreConsistentAfterAResult :
    (FlagName.z ∈ flagsWritten (.sub .a) ∧ ∃ t, exec (.sub .a) full = .next t) ∧
    (FlagName.z ∈ flagsWritten (.dcr .a) ∧ ∃ t, exec (.dcr .a) full = .next t) ∧
    (FlagName.z ∈ flagsWritten (.cmp .b) ∧ ∃ t, exec (.cmp .b) full = .next t) ∧
    FlagName.z ∈ flagsWritten (.cpi 0xFF#8) ∧ ∃ t, exec (.cpi 0xFF#8) full = .next t :=
  ⟨⟨by decide, exists_next (by decide)⟩, ⟨by decide, exists_next (by decide)⟩, ⟨by decide, exists_next (by decide)⟩,
    by decide, exists_next (by decide)⟩

/-- A call that transfers and one that does not; `SP` with both stack bytes inside, the first one outside, the second
one outside. -/
theorem witness_CallsPushTheReturnAddress :
    Memory.wf low.mem ∧ (.cnz 0x0820#16, 0xC4#8, true) ∈ callForms 0x0820#16 low.flags ∧
    (.cz 0x0820#16, 0xCC#8, false) ∈ callForms 0x0820#16 low.flags ∧
    (inWindow low.window (0x0802#16 - 1#16) = true ∧ inWindow low.window (0x0802#16 - 2#16) = true) ∧
    inWindow low.window (0x0800#16 - 1#16) = false ∧
    (inWindow low.window (0x0801#16 - 1#16) = true ∧ inWindow low.window (0x0801#16 - 2#16) = false) := by decide

theorem witness_RetPopsThePc :
    (full.readByte 0xFFFF#16 = .ok 0x00#8 ∧ full.readByte (0xFFFF#16 + 1#16) = .ok 0x00#8) ∧
    inWindow low.window { low with sp := 0x1000#16 }.sp = false ∧
    (inWindow low.window { low with sp := 0x0FFF#16 }.sp = true ∧
      inWindow low.window ({ low with sp := 0x0FFF#16 }.sp + 1#16) = false) := by decide

/-- After reset with the whole address space, the stack bytes are 0xFFFF and 0xFFFE. -/
theorem witness_RetUndoesCall :
    Memory.wf full.mem ∧ inWindow full.window (full.sp - 1#16) = true ∧ inWindow full.window (full.sp - 2#16) = true := by
  decide

theorem witness_PushStoresThePair :
    Memory.wf low.mem ∧ (Pair.hl, Reg.h, Reg.l) ∈ [(Pair.bc, Reg.b, Reg.c), (.de, .d, .e), (.hl, .h, .l)] ∧
    (inWindow low.window ({ low with sp := 0x1000#16 }.sp - 1#16) = true ∧
      inWindow low.window ({ low with sp := 0x1000#16 }.sp - 2#16) = true) ∧
    inWindow low.window (low.sp - 1#16) = false ∧
    (inWindow low.window ({ low with sp := 0x0801#16 }.sp - 1#16) = true ∧
      inWindow low.window ({ low with sp := 0x0801#16 }.sp - 2#16) = false) := by decide

theorem witness_PopLoadsThePair :
    (Pair.bc, Reg.b, Reg.c) ∈ [(Pair.bc, Reg.b, Reg.c), (.de, .d, .e), (.hl, .h, .l)] ∧
    (low.readByte low.sp = .ok 0x00#8 ∧ low.readByte (low.sp + 1#16) = .ok 0x00#8) ∧
    inWindow low.window { low with sp := 0x07FF#16 }.sp = false ∧
    (inWindow low.window { low with sp := 0x0FFF#16 }.sp = true ∧
      inWindow low.window ({ low with sp := 0x0FFF#16 }.sp + 1#16) = false) := by decide

theorem witness_StackItemsMoveBetweenPairsAndPc :
    Memory.wf low.mem ∧ inWindow low.window ({ low with sp := 0x0802#16 }.sp - 1#16) = true ∧
    inWindow low.window ({ low with sp := 0x0802#16 }.sp - 2#16) = true := by decide

theorem witness_HltSetsHalted :
    { full with halted := true, pc := 0x0000#16 } =
      { { full with pc := 0xFFFF#16 } with halted := true, pc := { full with pc := 0xFFFF#16 }.pc + 1#16 } := by decide

theorem witness_PokeChangesOneRegisterOrCell :
    low.window.Admissible ∧ Memory.wf low.mem ∧ inWindow low.window 0x0FFF#16 = true ∧ 0x07FF < low.window.size ∧
    inWindow low.window 0x1000#16 = false ∧ low.window.size ≤ 0x0800 := by decide

theorem witness_PeekReadsAndChangesNothing :
    low.readByte 0x0FFF#16 = .ok 0x00#8 ∧
    (0x07FF < low.window.size ∧ low.readByte (low.window.base + BitVec.ofNat 16 0x07FF) = .ok 0x00#8) ∧
    inWindow low.window 0x1000#16 = false ∧ low.window.size ≤ 0x0800 := by decide

theorem witness_HostWritesNoFlagPcSpOrHalted :
    (serve .reset { full with sp := 0x1234#16 }).2.sp ≠ { full with sp := 0x1234#16 }.sp ∧
    (serve (.load [0x76#8]) { top with halted := true }).2.halted ≠ { top with halted := true }.halted ∧
    (serve .step (atPc [0x76#8] full)).2.pc ≠ (atPc [0x76#8] full).pc := by decide

/-- A state no run from `RESET` reaches by steps alone: `pc` outside the window, the last cell written. -/
theorem witness_EveryRequestKeepsInvariant :
    { low with pc := 0x07FF#16, mem := poked [] [(0x0FFF, 0x5A#8)] }.Inv ∧ top.Inv := by decide

end Sys2Proof.Tests
end

section
/-! PROOF. The decoder inverted, and the fetch on bytes that decode: the step cycle runs what `decode` answers (R9, R121). -/

namespace Sys2Proof

/-- The decoder inverted: it answers an instruction exactly in three forms, by how many bytes the opcode asks for. -/
theorem decode_eq_ok_iff {bytes rest : List Byte} {i : Instr} :
    decode bytes = .ok (i, rest) ↔
      (∃ op, bytes = op :: rest ∧ decodeOp op = some (.complete i)) ∨
      (∃ op b1 mk, bytes = op :: b1 :: rest ∧ decodeOp op = some (.imm8 mk) ∧ i = mk b1) ∨
      (∃ op b1 b2 mk, bytes = op :: b1 :: b2 :: rest ∧ decodeOp op = some (.imm16 mk) ∧ i = mk (wordOf b2 b1)) := by
  constructor
  · intro h
    cases bytes with
    | nil => cases h
    | cons op bs =>
      cases hd : decodeOp op with
      | none => simp [decode, hd] at h
      | some t =>
        cases t with
        | complete j =>
          obtain ⟨rfl, rfl⟩ : j = i ∧ bs = rest := by simpa [decode_complete hd] using h
          exact .inl ⟨op, rfl, hd⟩
        | imm8 mk =>
          match bs with
          | [] => simp [decode, hd] at h
          | b1 :: bs =>
            obtain ⟨rfl, rfl⟩ : mk b1 = i ∧ bs = rest := by simpa [decode_imm8 hd] using h
            exact .inr (.inl ⟨op, b1, mk, rfl, hd, rfl⟩)
        | imm16 mk =>
          match bs with
          | [] | [_] => simp [decode, hd] at h
          | b1 :: b2 :: bs =>
            obtain ⟨rfl, rfl⟩ : mk (wordOf b2 b1) = i ∧ bs = rest := by simpa [decode_imm16 hd] using h
            exact .inr (.inr ⟨op, b1, b2, mk, rfl, hd, rfl⟩)
  · rintro (⟨op, rfl, hd⟩ | ⟨op, b1, mk, rfl, hd, rfl⟩ | ⟨op, b1, b2, mk, rfl, hd, rfl⟩)
    · exact decode_complete hd rest
    · exact decode_imm8 hd b1 rest
    · exact decode_imm16 hd b1 b2 rest

end Sys2Proof

namespace Sys2Proof.Machine

@[simp] theorem fetchOperands_complete (i : Instr) (s : State) : fetchOperands (.complete i) s = .ok i := rfl

theorem fetchOperands_imm8 {mk : Byte → Instr} {s : State} {b1 : Byte} (h1 : s.readByte (s.pc + 1#16) = .ok b1) :
    fetchOperands (.imm8 mk) s = .ok (mk b1) := by simp only [fetchOperands, h1]

theorem fetchOperands_imm16 {mk : Word → Instr} {s : State} {a16 : Word} (h : s.readWord (s.pc + 1#16) = .ok a16) :
    fetchOperands (.imm16 mk) s = .ok (mk a16) := by simp only [fetchOperands, h]

/-- A word read from the two bytes at an address and the address after it, low byte first (R56). -/
theorem readWord_of_readByte {s : State} {addr : Word} {lo hi : Byte} (hlo : s.readByte addr = .ok lo)
    (hhi : s.readByte (addr + 1#16) = .ok hi) : s.readWord addr = .ok (wordOf hi lo) := by
  simp only [State.readWord, hlo, hhi]

/-- `bytes` are what memory holds from `pc` upwards, the address wrapping at 16 bits (R9). -/
def BytesAtPc (s : State) (bytes : List Byte) : Prop :=
  ∀ (k : Nat) (v : Byte), bytes[k]? = some v → s.readByte (s.pc + BitVec.ofNat 16 k) = .ok v

theorem BytesAtPc.readByte_pc {s : State} {op : Byte} {bs : List Byte} (h : BytesAtPc s (op :: bs)) :
    s.readByte s.pc = .ok op := by simpa using h 0 op rfl

/-- The fetch finds the instruction that the bytes at `pc` decode to. -/
theorem fetchInstr_of_decode {s : State} {i : Instr} {bytes : List Byte} (hd : decode bytes = .ok (i, []))
    (hb : BytesAtPc s bytes) : fetchInstr s = .ok i := by
  obtain ⟨op, rfl, hop⟩ | ⟨op, b1, mk, rfl, hop, rfl⟩ | ⟨op, b1, b2, mk, rfl, hop, rfl⟩ := decode_eq_ok_iff.1 hd
  · rw [fetchInstr_recognised hb.readByte_pc hop, fetchOperands_complete]
  · rw [fetchInstr_recognised hb.readByte_pc hop, fetchOperands_imm8 (hb 1 b1 rfl)]
  · have h2 : s.readByte (s.pc + 1#16 + 1#16) = .ok b2 := by
      simpa [BitVec.add_assoc] using hb 2 b2 rfl
    rw [fetchInstr_recognised hb.readByte_pc hop, fetchOperands_imm16 (readWord_of_readByte (hb 1 b1 rfl) h2)]

/-- A ready unit whose fetch answers an instruction executes it (R121). -/
theorem step_of_fetchInstr_ok {s : State} {i : Instr} (hr : s.halted = false) (hf : fetchInstr s = .ok i) :
    step s = exec i s := by simp [step, hr, hf]

/-- Settles O11: the fetch of the bytes at `pc` answers what `decode` answers, by the three instruction lengths. -/
theorem stepRunsTheDecodedInstruction : Obligations.StepRunsTheDecodedInstruction := by
  intro s i bytes hr hd hb
  exact step_of_fetchInstr_ok hr (fetchInstr_of_decode hd hb)

end Sys2Proof.Machine
end

section
/-! PROOF. The invariant at reset (R4, R36). -/

namespace Sys2Proof

theorem Config.window_admissible : Config.window.Admissible := by decide

end Sys2Proof

namespace Sys2Proof.Machine

/-- After reset no cell is listed, so memory is canonical and inside any window (R36). -/
theorem State.resetFor_inv {w : Window} (hw : w.Admissible) : (State.resetFor w).Inv :=
  ⟨hw, Memory.wf_nil, fun _ hc => absurd hc List.not_mem_nil⟩

/-- Settles O8: at reset the list of cells is empty, and the model's own window is one of the admissible ones. -/
theorem resetSatisfiesInvariant : Obligations.ResetSatisfiesInvariant :=
  ⟨fun _ => State.resetFor_inv, State.resetFor_inv Config.window_admissible⟩

end Sys2Proof.Machine
end

section
/-! PROOF. What every step and every host request keep: the invariant (R4, R33, R51), from one step to all runs. -/

namespace Sys2Proof.Machine

theorem step_of_halted {s : State} (h : s.halted = true) : step s = .fault .halted := by simp only [step, h, if_true]

theorem step_of_fetchInstr_error {s : State} {f : Fault} (hr : s.halted = false) (hf : fetchInstr s = .error f) :
    step s = .fault f := by simp [step, hr, hf, raise]

/-- Everything a step that answers a next state did: the unit was ready, and it executed the instruction it fetched. -/
theorem step_next {s t : State} (h : step s = .next t) :
    s.halted = false ∧ ∃ i, fetchInstr s = .ok i ∧ exec i s = .next t := by
  cases hh : s.halted with
  | true => rw [step_of_halted hh] at h; cases h
  | false =>
    cases hf : fetchInstr s with
    | error f => rw [step_of_fetchInstr_error hh hf] at h; cases h
    | ok i => rw [step_of_fetchInstr_ok hh hf] at h; exact ⟨rfl, i, rfl, h⟩

/-- Byte stores inside the window keep the invariant. -/
theorem State.Inv.of_stores {s t : State} (hs : s.Inv) (hw : t.window = s.window)
    (hm : Stores s.window s.mem t.mem) : t.Inv := by
  obtain ⟨hadm, hwf, hin⟩ := hs
  refine ⟨hw ▸ hadm, hm.wf hwf, ?_⟩
  unfold CellsInside
  rw [hw]
  exact hm.inside hadm hin

/-- Settles O9: a step runs one instruction, and an instruction does nothing to memory but store inside the window. -/
theorem stepKeepsInvariant : Obligations.StepKeepsInvariant := by
  intro s t hs h
  obtain ⟨_, i, _, hi⟩ := step_next h
  obtain ⟨hw, hm⟩ := exec_stores hi
  exact ⟨hs.of_stores hw hm, hw⟩

theorem hostLoad_keeps_inv {s : State} (image : List Byte) (hs : s.Inv) :
    (hostLoad image s).2.Inv ∧ (hostLoad image s).2.window = s.window := by
  unfold hostLoad
  split
  · refine ⟨⟨hs.1, Memory.wf_ofImage _ image, fun c hc => ?_⟩, rfl⟩
    have hc := Memory.mem_ofImage hc
    rwa [‹image.length = s.window.size›] at hc
  · exact ⟨hs, rfl⟩

theorem hostStep_keeps_inv {s : State} (hs : s.Inv) : (hostStep s).2.Inv ∧ (hostStep s).2.window = s.window := by
  obtain ⟨t, ht, e⟩ | e := hostStep_state s
  · rw [e]; exact stepKeepsInvariant s t hs ht
  · rw [e]; exact ⟨hs, rfl⟩

theorem hostPoke_keeps_inv {s : State} (target : PokeTarget) (v : Nat) (hs : s.Inv) :
    (hostPoke target v s).2.Inv ∧ (hostPoke target v s).2.window = s.window := by
  cases target with
  | reg r => exact ⟨hs, rfl⟩
  | cell c =>
    simp only [hostPoke]
    split
    · exact ⟨hs.of_stores rfl (.store _ _ .none (cellAddress_inside hs.1 ‹_›)), rfl⟩
    · exact ⟨hs, rfl⟩

/-- Settles O55, request by request. -/
theorem everyRequestKeepsInvariant : Obligations.EveryRequestKeepsInvariant := by
  intro r s hs
  cases r with
  | reset => exact ⟨State.resetFor_inv hs.1, rfl⟩
  | load image => exact hostLoad_keeps_inv image hs
  | step => exact hostStep_keeps_inv hs
  | peek target => exact ⟨hs, rfl⟩
  | poke target v => exact hostPoke_keeps_inv target v hs

/-- Settles O10, by induction on the requests since the first `RESET`. -/
theorem everyReachableStateSatisfiesInvariant : Obligations.EveryReachableStateSatisfiesInvariant := by
  intro w s hw hs
  induction hs with
  | reset => exact ⟨State.resetFor_inv hw, rfl⟩
  | request r _ ih =>
    obtain ⟨hinv, hwin⟩ := ih
    obtain ⟨hinv', hwin'⟩ := everyRequestKeepsInvariant r _ hinv
    exact ⟨hinv', hwin'.trans hwin⟩

end Sys2Proof.Machine
end

section
/-! PROOF. Nothing reads `AC` (R29): every shared operation, and then every meaning, commutes with a change of
`AC` alone. -/

namespace Sys2Proof.Machine
open Sys2Proof.Stated

/-! ### What a change of `AC` leaves alone -/

@[simp] theorem withAc_reg (s : State) (b : Bool) (r : Reg) : (withAc s b).reg r = s.reg r := rfl
@[simp] theorem withAc_pair (s : State) (b : Bool) (rp : Pair) : (withAc s b).pair rp = s.pair rp := rfl
@[simp] theorem withAc_pc (s : State) (b : Bool) : (withAc s b).pc = s.pc := rfl
@[simp] theorem withAc_sp (s : State) (b : Bool) : (withAc s b).sp = s.sp := rfl
@[simp] theorem withAc_halted (s : State) (b : Bool) : (withAc s b).halted = s.halted := rfl

@[simp] theorem readByte_withAc (s : State) (b : Bool) (addr : Word) :
    (withAc s b).readByte addr = s.readByte addr := rfl
@[simp] theorem readWord_withAc (s : State) (b : Bool) (addr : Word) :
    (withAc s b).readWord addr = s.readWord addr := rfl
@[simp] theorem fetchInstr_withAc (s : State) (b : Bool) : fetchInstr (withAc s b) = fetchInstr s := rfl

/-! ### The shared operations that leave a state -/

@[simp] theorem writeByte_withAc (s : State) (b : Bool) (addr : Word) (v : Byte) :
    (withAc s b).writeByte addr v = (s.writeByte addr v).map (withAc · b) := by
  cases h : inWindow s.window addr
  · rw [writeByte_outside h, writeByte_outside (s := withAc s b) h]; rfl
  · rw [writeByte_inside h, writeByte_inside (s := withAc s b) h]; rfl

@[simp] theorem writeWord_withAc (s : State) (b : Bool) (addr v : Word) :
    (withAc s b).writeWord addr v = (s.writeWord addr v).map (withAc · b) := by
  simp only [State.writeWord, writeByte_withAc]
  cases s.writeByte addr (lo8 v) with
  | error f => rfl
  | ok s1 => exact writeByte_withAc s1 b _ _

@[simp] theorem pushWord_withAc (s : State) (b : Bool) (v : Word) :
    (withAc s b).pushWord v = (s.pushWord v).map (withAc · b) := by
  simp only [State.pushWord, withAc_sp, writeByte_withAc]
  cases s.writeByte (s.sp - 1#16) (hi8 v) with
  | error f => rfl
  | ok s1 =>
    simp only [Except.map, writeByte_withAc]
    cases s1.writeByte (s.sp - 2#16) (lo8 v) <;> rfl

@[simp] theorem popWord_withAc (s : State) (b : Bool) :
    (withAc s b).popWord = s.popWord.map fun x => (x.1, withAc x.2 b) := by
  simp only [State.popWord, withAc_sp, readWord_withAc]
  cases s.readWord s.sp <;> rfl

/-! ### The meanings -/

theorem sameButAc_next {t u : State} (b : Bool) (h : u = withAc t b) : SameButAc (.next t) (.next u) := ⟨b, h⟩

theorem sameButAc_commit {x y : Except Fault State} {b : Bool} (h : y = x.map (withAc · b)) :
    SameButAc (commit x) (commit y) := by
  subst h
  cases x with
  | error f => rfl
  | ok s => exact ⟨b, rfl⟩

theorem loadA_withAc (addr len : Word) (s : State) (b : Bool) :
    SameButAc (loadA addr len s) (loadA addr len (withAc s b)) := by
  refine sameButAc_commit (b := b) ?_
  rw [readByte_withAc]
  cases s.readByte addr <;> rfl

theorem storeA_withAc (addr len : Word) (s : State) (b : Bool) :
    SameButAc (storeA addr len s) (storeA addr len (withAc s b)) := by
  refine sameButAc_commit (b := b) ?_
  rw [withAc_reg, writeByte_withAc]
  cases s.writeByte addr (s.reg .a) <;> rfl

theorem execLhld_withAc (addr : Word) (s : State) (b : Bool) :
    SameButAc (execLhld addr s) (execLhld addr (withAc s b)) := by
  refine sameButAc_commit (b := b) ?_
  rw [readWord_withAc]
  cases s.readWord addr <;> rfl

theorem execShld_withAc (addr : Word) (s : State) (b : Bool) :
    SameButAc (execShld addr s) (execShld addr (withAc s b)) := by
  refine sameButAc_commit (b := b) ?_
  rw [withAc_pair, writeWord_withAc]
  cases s.writeWord addr (s.pair .hl) <;> rfl

theorem execPush_withAc (rp : Pair) (s : State) (b : Bool) :
    SameButAc (execPush rp s) (execPush rp (withAc s b)) := by
  refine sameButAc_commit (b := b) ?_
  rw [withAc_pair, pushWord_withAc]
  cases s.pushWord (s.pair rp) <;> rfl

theorem execPop_withAc (rp : Pair) (s : State) (b : Bool) :
    SameButAc (execPop rp s) (execPop rp (withAc s b)) := by
  refine sameButAc_commit (b := b) ?_
  rw [popWord_withAc]
  cases s.popWord <;> rfl

theorem execRet_withAc (s : State) (b : Bool) : SameButAc (execRet s) (execRet (withAc s b)) := by
  refine sameButAc_commit (b := b) ?_
  rw [popWord_withAc]
  cases s.popWord <;> rfl

theorem jumpIf_withAc (c : Bool) (target : Word) (s : State) (b : Bool) :
    SameButAc (jumpIf c target s) (jumpIf c target (withAc s b)) := by
  cases c <;> exact sameButAc_next b rfl

theorem callIf_withAc (c : Bool) (target : Word) (s : State) (b : Bool) :
    SameButAc (callIf c target s) (callIf c target (withAc s b)) := by
  refine sameButAc_commit (b := b) ?_
  rw [withAc_pc, pushWord_withAc]
  cases c with
  | false => rfl
  | true => cases s.pushWord (s.pc + 3#16) <;> rfl

/-- No meaning reads `AC`: those that write the flags from a result leave the `AC` of that result in both states, all
others carry the given `AC` along. -/
theorem exec_withAc (i : Instr) (s : State) (b : Bool) : SameButAc (exec i s) (exec i (withAc s b)) := by
  cases i with
  | lda | ldax => exact loadA_withAc _ _ s b
  | sta | stax => exact storeA_withAc _ _ s b
  | lhld addr => exact execLhld_withAc addr s b
  | shld addr => exact execShld_withAc addr s b
  | push rp => exact execPush_withAc rp s b
  | pop rp => exact execPop_withAc rp s b
  | ret => exact execRet_withAc s b
  | jmp | jnz | jz | jnc | jc | jpo | jpe | jp | jm => exact jumpIf_withAc _ _ s b
  | call | cnz | cz | cnc | cc | cpo | cpe | cp | cm => exact callIf_withAc _ _ s b
  | add | adc | adi | aci | sub | sbb | sui | inr | dcr | ana | ani | ora | xra | cmp | cpi =>
    exact sameButAc_next _ rfl
  | lxi dst => cases dst <;> exact sameButAc_next b rfl
  | mov | mvi | xchg | cma | cmc | rlc | rrc | ral | rar | hlt => exact sameButAc_next b rfl

/-- Settles O24: the fetch does not see `AC`, and no meaning reads it. -/
theorem noStepReadsAuxiliaryCarry : Obligations.NoStepReadsAuxiliaryCarry := by
  intro s b
  have halted_eq := withAc_halted s b
  have fetch_eq := fetchInstr_withAc s b
  cases hh : s.halted with
  | true =>
    rw [step_of_halted hh, step_of_halted (halted_eq.trans hh)]
    rfl
  | false =>
    have hh' := halted_eq.trans hh
    cases hf : fetchInstr s with
    | error f =>
      rw [step_of_fetchInstr_error hh hf, step_of_fetchInstr_error hh' (fetch_eq.trans hf)]
      rfl
    | ok i =>
      rw [step_of_fetchInstr_ok hh hf, step_of_fetchInstr_ok hh' (fetch_eq.trans hf)]
      exact exec_withAc i s b

end Sys2Proof.Machine
end

section
/-! PROOF. The frame of every instruction: registers, flags, `pc`, `SP` and `HALTED` after `exec` (R22, R25, R26, R29,
R31). -/

namespace Sys2Proof.Machine
open Sys2Proof.Stated

/-! ### What the writes to registers and flags leave alone -/

theorem Regs.get_set_of_not_mem (rs : Regs) {dst r : Reg} (v : Byte) (h : r ∉ [dst]) :
    (rs.set dst v).get r = rs.get r := Regs.get_set_ne rs v (List.ne_of_not_mem_cons h)

theorem Regs.get_setPair_of_not_mem (rs : Regs) {rp : Pair} {r : Reg} (v : Word) (h : r ∉ pairRegisters rp) :
    (rs.setPair rp v).get r = rs.get r :=
  Regs.get_setPair_ne rs v fun hm => h (by cases rp <;> simpa [pairRegisters] using hm)

theorem FlagName.mem_all (f : FlagName) : f ∈ [FlagName.s, .z, .ac, .p, .cy] := by cases f <;> decide

theorem Flags.get_flagsKeepCarry (old : Flags) (raw : BitVec 9) {f : FlagName} (h : f ∉ [FlagName.s, .z, .ac, .p]) :
    (flagsKeepCarry old raw).get f = old.get f := by
  cases f with
  | cy => rfl
  | s | z | ac | p => exact absurd (by decide) h

theorem Flags.get_setCarry (old : Flags) (c : Bool) {f : FlagName} (h : f ∉ [FlagName.cy]) :
    ({ old with cy := c } : Flags).get f = old.get f := by
  cases f with
  | cy => exact absurd (by decide) h
  | s | z | ac | p => rfl

/-! ### Control transfers, by their target -/

theorem exec_eq_jumpIf {i : Instr} {a : Word} (h : jumpTarget i = some a) (s : State) :
    exec i s = jumpIf (taken i s) a s := by
  cases i <;> cases h <;> rfl

theorem exec_eq_callIf {i : Instr} {a : Word} (h : callTarget i = some a) (s : State) :
    exec i s = callIf (taken i s) a s := by
  cases i <;> cases h <;> rfl

theorem len_of_target {i : Instr} {a : Word} (h : jumpTarget i = some a ∨ callTarget i = some a) : i.len = 3 := by
  obtain h | h := h <;> cases i <;> cases h <;> rfl

/-- Only a jump or a call can be not taken: everything else has no condition (R85). -/
theorem exists_target_of_not_taken {i : Instr} {s : State} (h : taken i s = false) :
    ∃ a, jumpTarget i = some a ∨ callTarget i = some a := by
  cases i with
  | jnz a | jz a | jnc a | jc a | jpo a | jpe a | jp a | jm a => exact ⟨a, .inl rfl⟩
  | cnz a | cz a | cnc a | cc a | cpo a | cpe a | cp a | cm a => exact ⟨a, .inr rfl⟩
  | _ => cases h

/-- `pc` after a jump or call that completed (R210). -/
theorem pc_of_target {i : Instr} {a : Word} {s t : State} (ha : jumpTarget i = some a ∨ callTarget i = some a)
    (h : exec i s = .next t) : t.pc = if taken i s then a else s.pc + 3#16 := by
  rcases ha with ha | ha
  · rw [exec_eq_jumpIf ha, jumpIf_eq] at h
    cases h; rfl
  · rw [exec_eq_callIf ha] at h
    obtain ⟨ht, _, _, rfl⟩ | ⟨ht, rfl⟩ := callIf_next h
    · rw [ht]; rfl
    · rw [ht]; rfl

/-! ### The frame, once for every instruction -/

/-- What instruction `i` leaves in the registers, the flags, `SP`, `HALTED`, and `pc` where it transfers no control.
A default proof serves the instructions whose meaning shows the field by computation. -/
structure Frame (i : Instr) (s t : State) : Prop where
  reg : ∀ r, r ∉ registersWritten i → t.reg r = s.reg r := by intros; rfl
  flag : ∀ f, f ∉ flagsWritten i → t.flags.get f = s.flags.get f := by intros; rfl
  sp : t.sp = stackPointerAfter i s := by rfl
  halted : i ≠ .hlt → t.halted = s.halted := by intros; rfl
  pc : jumpTarget i = none → callTarget i = none → i ≠ .ret → t.pc = s.pc + BitVec.ofNat 16 i.len := by
    intros; rfl

/-- An instruction leaves the frame it should; the cases follow the shapes of the meanings. -/
theorem exec_frame {i : Instr} {s t : State} (h : exec i s = .next t) : Frame i s t := by
  cases i with
  | lda | ldax =>
    obtain ⟨_, rfl⟩ := loadA_next h
    exact { reg := fun _ => Regs.get_set_of_not_mem _ _ }
  | sta | stax =>
    obtain ⟨_, rfl⟩ := storeA_next h
    exact {}
  | lhld =>
    obtain ⟨_, _, rfl⟩ := execLhld_next h
    exact { reg := fun _ => Regs.get_setPair_of_not_mem (rp := .hl) _ _ }
  | shld =>
    obtain ⟨_, _, rfl⟩ := execShld_next h
    exact {}
  | push =>
    obtain ⟨_, _, rfl⟩ := execPush_next h
    exact {}
  | pop =>
    obtain ⟨_, _, rfl⟩ := execPop_next h
    exact { reg := fun _ => Regs.get_setPair_of_not_mem _ _ }
  | ret =>
    obtain ⟨_, _, rfl⟩ := execRet_next h
    exact { pc := fun _ _ hr => absurd rfl hr }
  | jmp | jnz | jz | jnc | jc | jpo | jpe | jp | jm =>
    cases (jumpIf_eq _ _ s).symm.trans h
    exact { pc := nofun }
  | call | cnz | cz | cnc | cc | cpo | cpe | cp | cm =>
    obtain ⟨ht, _, _, rfl⟩ | ⟨ht, rfl⟩ := callIf_next h
    · exact { sp := (if_pos (e := s.sp) ht).symm, pc := nofun }
    · exact { sp := (if_neg (Bool.eq_false_iff.1 ht)).symm, pc := nofun }
  | mov | mvi | cma =>
    cases h
    exact { reg := fun _ => Regs.get_set_of_not_mem _ _ }
  | lxi dst =>
    cases h
    cases dst with
    | sp => exact {}
    | pair rp => exact { reg := fun _ => Regs.get_setPair_of_not_mem _ _ }
  | xchg =>
    cases h
    refine { reg := fun r hr => ?_ }
    have hde : r ∉ pairRegisters .de := fun hm => hr (List.mem_append_left [Reg.h, .l] hm)
    have hhl : r ∉ pairRegisters .hl := fun hm => hr (List.mem_append_right [Reg.d, .e] hm)
    exact (Regs.get_setPair_of_not_mem _ _ hde).trans (Regs.get_setPair_of_not_mem _ _ hhl)
  | add | adc | adi | aci | sub | sbb | sui | ana | ani | ora | xra =>
    cases h
    exact { reg := fun _ => Regs.get_set_of_not_mem _ _, flag := fun f hf => absurd f.mem_all hf }
  | inr | dcr =>
    cases h
    exact { reg := fun _ => Regs.get_set_of_not_mem _ _, flag := fun _ => Flags.get_flagsKeepCarry _ _ }
  | rlc | rrc | ral | rar =>
    cases h
    exact { reg := fun _ => Regs.get_set_of_not_mem _ _, flag := fun _ => Flags.get_setCarry _ _ }
  | cmc =>
    cases h
    exact { flag := fun _ => Flags.get_setCarry _ _ }
  | cmp | cpi =>
    cases h
    exact { flag := fun f hf => absurd f.mem_all hf }
  | hlt =>
    cases h
    exact { halted := fun hn => absurd rfl hn }

/-- Settles O18: the registers of the frame. -/
theorem instructionsKeepOtherRegisters : Obligations.InstructionsKeepOtherRegisters :=
  fun _ _ _ h => (exec_frame h).reg

/-- Settles O19: the flags of the frame, and `CY` after the logic instructions and `cmc` read off their meanings. -/
theorem instructionsKeepOtherFlags : Obligations.InstructionsKeepOtherFlags := by
  intro i s t h
  refine ⟨(exec_frame h).flag, ?_, ?_, ?_⟩
  · rintro r (rfl | rfl | rfl) <;> cases h <;> rfl
  · rintro v rfl
    cases h; rfl
  · rintro rfl
    cases h; rfl

/-- Settles O22: `SP` of the frame. -/
theorem stackPointerAfterEveryInstruction : Obligations.StackPointerAfterEveryInstruction :=
  fun _ _ _ h => (exec_frame h).sp

/-- Settles O23: `hlt` sets `HALTED`, and the frame of every other instruction keeps it. -/
theorem onlyHltWritesHalted : Obligations.OnlyHltWritesHalted := by
  intro i s t h
  by_cases hi : i = .hlt
  · subst hi
    cases h
    simp
  · simp [(exec_frame h).halted hi, hi]

/-- Settles O21: transfers by their target, `ret` by the word it pops, everything else by the frame. -/
theorem programCounterAfterEveryInstruction : Obligations.ProgramCounterAfterEveryInstruction := by
  intro i s t h
  refine ⟨fun a ha htaken => ?_, ?_, ?_⟩
  · rw [pc_of_target ha h, if_pos htaken]
  · rintro rfl
    obtain ⟨v, hv, rfl⟩ := execRet_next h
    exact hv
  · rintro (⟨hj, hc, hr⟩ | hnot)
    · exact (exec_frame h).pc hj hc hr
    · obtain ⟨a, ha⟩ := exists_target_of_not_taken hnot
      rw [pc_of_target ha h, hnot, len_of_target ha]
      rfl

end Sys2Proof.Machine
end

section
/-! PROOF. The field codes (R21, R23, R84). -/

namespace Sys2Proof

/-- Settles O5: three closed tables, of 8, 4 and 4 codes. -/
theorem fieldCodesNameTheirOperands : Obligations.FieldCodesNameTheirOperands := by
  refine ⟨?registers, ?pairs, ?lxiOperands⟩
  case registers => decide
  case pairs => decide
  case lxiOperands => decide

end Sys2Proof
end

section
/-! PROOF. One access to memory: the address decoder, byte and word accesses (R51 to R53, R56 to R58, R62). Every access
of the model is a check of its addresses, in order, and then a result that cannot fail. -/

namespace Sys2Proof.Machine
open Sys2Proof.Stated

/-- Check addresses in order: `AccessFault` of the first that is outside the window (R53, R62). -/
def checkAll (w : Window) : List Word → Except Fault Unit
  | [] => .ok ()
  | addr :: addrs => if inWindow w addr then checkAll w addrs else .error (.accessFault addr)

@[simp] theorem checkAll_nil (w : Window) : checkAll w [] = .ok () := rfl

@[simp] theorem checkAll_cons (w : Window) (addr : Word) (addrs : List Word) :
    checkAll w (addr :: addrs) = if inWindow w addr then checkAll w addrs else .error (.accessFault addr) := rfl

theorem checkAll_inside {w : Window} {addrs : List Word} (h : ∀ addr ∈ addrs, inWindow w addr = true) :
    checkAll w addrs = .ok () := by
  induction addrs with
  | nil => rfl
  | cons addr addrs ih =>
    obtain ⟨hhead, htail⟩ := List.forall_mem_cons.1 h
    rw [checkAll_cons, if_pos hhead, ih htail]

theorem checkAll_first_outside {w : Window} {pre : List Word} {addr : Word} (post : List Word)
    (hpre : ∀ x ∈ pre, inWindow w x = true) (h : inWindow w addr = false) :
    checkAll w (pre ++ addr :: post) = .error (.accessFault addr) := by
  induction pre with
  | nil => simp [h]
  | cons x pre ih =>
    obtain ⟨hhead, htail⟩ := List.forall_mem_cons.1 hpre
    rw [List.cons_append, checkAll_cons, if_pos hhead, ih htail]

/-! ### The accesses, each in one equation -/

theorem readByte_eq_check (s : State) (addr : Word) :
    s.readByte addr = (checkAll s.window [addr]).map fun _ => Memory.read s.mem addr.toNat := by
  cases h : inWindow s.window addr
  · simp [readByte_outside h, h, Except.map]
  · simp [readByte_inside h, h, Except.map]

theorem writeByte_eq_check (s : State) (addr : Word) (v : Byte) :
    s.writeByte addr v =
      (checkAll s.window [addr]).map fun _ => { s with mem := Memory.write s.mem addr.toNat v } := by
  cases h : inWindow s.window addr
  · simp [writeByte_outside h, h, Except.map]
  · simp [writeByte_inside h, h, Except.map]

theorem readWord_eq_check (s : State) (addr : Word) :
    s.readWord addr = (checkAll s.window [addr, addr + 1#16]).map fun _ =>
      wordOf (Memory.read s.mem (addr + 1#16).toNat) (Memory.read s.mem addr.toNat) := by
  cases h0 : inWindow s.window addr
  · simp [State.readWord, readByte_outside h0, h0, Except.map]
  · cases h1 : inWindow s.window (addr + 1#16)
    · simp [State.readWord, readByte_inside h0, readByte_outside h1, h0, h1, Except.map]
    · simp [readWord_inside h0 h1, h0, h1, Except.map]

theorem writeWord_eq_check (s : State) (addr v : Word) :
    s.writeWord addr v = (checkAll s.window [addr, addr + 1#16]).map fun _ =>
      { s with mem := Memory.write (Memory.write s.mem addr.toNat (lo8 v)) (addr + 1#16).toNat (hi8 v) } := by
  cases h0 : inWindow s.window addr
  · simp [State.writeWord, writeByte_outside h0, h0, Except.map]
  · cases h1 : inWindow s.window (addr + 1#16)
    · simp [State.writeWord, State.writeByte, h0, h1, Except.map]
    · simp [writeWord_inside h0 h1, h0, h1, Except.map]

theorem pushWord_eq_check (s : State) (v : Word) :
    s.pushWord v = (checkAll s.window [s.sp - 1#16, s.sp - 2#16]).map fun _ => { s with
      mem := Memory.write (Memory.write s.mem (s.sp - 1#16).toNat (hi8 v)) (s.sp - 2#16).toNat (lo8 v),
      sp := s.sp - 2#16 } := by
  cases h1 : inWindow s.window (s.sp - 1#16)
  · simp [State.pushWord, writeByte_outside h1, h1, Except.map]
  · cases h2 : inWindow s.window (s.sp - 2#16)
    · simp [State.pushWord, State.writeByte, h1, h2, Except.map]
    · simp [pushWord_inside h1 h2, h1, h2, Except.map]

theorem popWord_eq_check (s : State) :
    s.popWord = (checkAll s.window [s.sp, s.sp + 1#16]).map fun _ =>
      (wordOf (Memory.read s.mem (s.sp + 1#16).toNat) (Memory.read s.mem s.sp.toNat),
        { s with sp := s.sp + 2#16 }) := by
  rw [State.popWord, readWord_eq_check]
  cases checkAll s.window [s.sp, s.sp + 1#16] <;> rfl

/-! ### What stores leave alone -/

theorem sameMemoryExcept_of_write {s t : State} {x : Word} {u : Byte} (hw : t.window = s.window)
    (hm : t.mem = Memory.write s.mem x.toNat u) : SameMemoryExcept [x] s t :=
  fun _ h => readByte_write_ne hw hm (List.ne_of_not_mem_cons h)

theorem sameMemoryExcept_of_write_write {s t : State} {x y : Word} {u v : Byte} (hw : t.window = s.window)
    (hm : t.mem = Memory.write (Memory.write s.mem x.toNat u) y.toNat v) : SameMemoryExcept [x, y] s t :=
  fun _ h => readByte_write_write_ne hw hm (List.ne_of_not_mem_cons h)
    (List.ne_of_not_mem_cons (List.not_mem_of_not_mem_cons h))

/-! ### The two bytes of a word -/

/-- A 16-bit write is read back byte by byte, low byte first (R57). -/
theorem readByte_of_writeWord {s t : State} {addr v : Word} (hs : Memory.wf s.mem) (h : s.writeWord addr v = .ok t) :
    t.readByte addr = .ok (lo8 v) ∧ t.readByte (addr + 1#16) = .ok (hi8 v) := by
  obtain ⟨h0, h1, rfl⟩ := writeWord_eq_ok.1 h
  exact readByte_write_write hs rfl rfl (ne_add_one addr) h0 h1

theorem lo8_eq_ofNat (v : Word) : lo8 v = BitVec.ofNat 8 (v.toNat % 256) := by
  apply BitVec.eq_of_toNat_eq
  simp [lo8_toNat]

theorem hi8_eq_ofNat (v : Word) : hi8 v = BitVec.ofNat 8 (v.toNat / 256) := by
  have := v.isLt
  apply BitVec.eq_of_toNat_eq
  rw [hi8_toNat, BitVec.toNat_ofNat]
  omega

/-! ### The statements about accesses -/

/-- Settles O25: the address decoder in numbers, then one case for each side of the window. -/
theorem accessOutsideTheWindowFaults : Obligations.AccessOutsideTheWindowFaults := by
  intro s addr v hadm
  have hin := inWindow_iff hadm addr
  split
  case isTrue h => exact ⟨⟨_, readByte_inside (hin.2 h)⟩, _, writeByte_inside (hin.2 h) v⟩
  case isFalse h =>
    have hout := Bool.eq_false_iff.2 (mt hin.1 h)
    exact ⟨readByte_outside hout, writeByte_outside hout v⟩

/-- Settles O26: a byte write that succeeded was inside the window and changed the one cell. -/
theorem readReturnsTheLastWrite : Obligations.ReadReturnsTheLastWrite := by
  intro s t addr v hwf h
  obtain ⟨hin, rfl⟩ := writeByte_eq_ok.1 h
  exact ⟨readByte_write_same hwf rfl rfl hin, sameMemoryExcept_of_write rfl rfl, rfl, Memory.wf_write hwf _ _⟩

/-- Settles O27: the check of the two addresses gives the failures; with both inside, the stores are at two distinct
addresses and are read back. -/
theorem wordAccessIsTwoByteAccesses : Obligations.WordAccessIsTwoByteAccesses := by
  intro s addr v hwf
  refine ⟨fun h0 => ?firstOutside, fun h0 h1 => ?secondOutside, fun h0 h1 => ⟨?read, ?write⟩⟩
  case firstOutside => simp [readWord_eq_check, writeWord_eq_check, h0, Except.map]
  case secondOutside => simp [readWord_eq_check, writeWord_eq_check, h0, h1, Except.map]
  case read =>
    exact ⟨_, _, _, readByte_inside h0, readByte_inside h1, readWord_inside h0 h1, wordOf_toNat _ _⟩
  case write =>
    have hwrite := writeWord_inside h0 h1 v
    obtain ⟨hlo, hhi⟩ := readByte_of_writeWord hwf hwrite
    rw [← lo8_eq_ofNat, ← hi8_eq_ofNat]
    exact ⟨_, hwrite, hlo, hhi, sameMemoryExcept_of_write_write rfl rfl, rfl⟩

end Sys2Proof.Machine
end

section
/-! PROOF. The accesses of every instruction (R58): it completes or faults by them, and it stores nowhere else. -/

namespace Sys2Proof.Machine
open Sys2Proof.Stated

theorem accesses_ldax (rp : PtrPair) (s : State) : accesses (.ldax rp) s = [s.pointer rp] := by cases rp <;> rfl

theorem accesses_stax (rp : PtrPair) (s : State) : accesses (.stax rp) s = [s.pointer rp] := by cases rp <;> rfl

/-! ### The meanings that access memory, each in one equation -/

theorem loadA_eq_check (addr len : Word) (s : State) :
    loadA addr len s = commit ((checkAll s.window [addr]).map fun _ =>
      (s.setReg .a (Memory.read s.mem addr.toNat)).advance len) := by
  rw [loadA, readByte_eq_check]
  cases checkAll s.window [addr] <;> rfl

theorem storeA_eq_check (addr len : Word) (s : State) :
    storeA addr len s = commit ((checkAll s.window [addr]).map fun _ =>
      { s with mem := Memory.write s.mem addr.toNat (s.reg .a), pc := s.pc + len }) := by
  rw [storeA, writeByte_eq_check]
  cases checkAll s.window [addr] <;> rfl

theorem execLhld_eq_check (addr : Word) (s : State) :
    execLhld addr s = commit ((checkAll s.window [addr, addr + 1#16]).map fun _ =>
      (s.setPair .hl
        (wordOf (Memory.read s.mem (addr + 1#16).toNat) (Memory.read s.mem addr.toNat))).advance 3#16) := by
  rw [execLhld, readWord_eq_check]
  cases checkAll s.window [addr, addr + 1#16] <;> rfl

theorem execShld_eq_check (addr : Word) (s : State) :
    execShld addr s = commit ((checkAll s.window [addr, addr + 1#16]).map fun _ =>
      { s with
        mem := Memory.write (Memory.write s.mem addr.toNat (lo8 (s.pair .hl))) (addr + 1#16).toNat (hi8 (s.pair .hl)),
        pc := s.pc + 3#16 }) := by
  rw [execShld, writeWord_eq_check]
  cases checkAll s.window [addr, addr + 1#16] <;> rfl

theorem execPush_eq_check (rp : Pair) (s : State) :
    execPush rp s = commit ((checkAll s.window [s.sp - 1#16, s.sp - 2#16]).map fun _ =>
      { s with
        mem := Memory.write (Memory.write s.mem (s.sp - 1#16).toNat (hi8 (s.pair rp))) (s.sp - 2#16).toNat
          (lo8 (s.pair rp)),
        sp := s.sp - 2#16, pc := s.pc + 1#16 }) := by
  rw [execPush, pushWord_eq_check]
  cases checkAll s.window [s.sp - 1#16, s.sp - 2#16] <;> rfl

theorem execPop_eq_check (rp : Pair) (s : State) :
    execPop rp s = commit ((checkAll s.window [s.sp, s.sp + 1#16]).map fun _ =>
      { s with
        regs := s.regs.setPair rp (wordOf (Memory.read s.mem (s.sp + 1#16).toNat) (Memory.read s.mem s.sp.toNat)),
        sp := s.sp + 2#16, pc := s.pc + 1#16 }) := by
  rw [execPop, popWord_eq_check]
  cases checkAll s.window [s.sp, s.sp + 1#16] <;> rfl

theorem execRet_eq_check (s : State) :
    execRet s = commit ((checkAll s.window [s.sp, s.sp + 1#16]).map fun _ =>
      { s with
        sp := s.sp + 2#16, pc := wordOf (Memory.read s.mem (s.sp + 1#16).toNat) (Memory.read s.mem s.sp.toNat) }) := by
  rw [execRet, popWord_eq_check]
  cases checkAll s.window [s.sp, s.sp + 1#16] <;> rfl

theorem callIf_taken_eq_check (target : Word) (s : State) :
    callIf true target s = commit ((checkAll s.window [s.sp - 1#16, s.sp - 2#16]).map fun _ =>
      { s with
        mem := Memory.write (Memory.write s.mem (s.sp - 1#16).toNat (hi8 (s.pc + 3#16))) (s.sp - 2#16).toNat
          (lo8 (s.pc + 3#16)),
        sp := s.sp - 2#16, pc := target }) := by
  rw [callIf, pushWord_eq_check, if_pos rfl]
  cases checkAll s.window [s.sp - 1#16, s.sp - 2#16] <;> rfl

/-- A call that is not taken has no access (R58, R220). -/
theorem callIf_eq_check (b : Bool) (target : Word) (s : State) :
    ∃ t, callIf b target s =
      commit ((checkAll s.window (if b then [s.sp - 1#16, s.sp - 2#16] else [])).map fun _ => t) := by
  cases b with
  | false => exact ⟨_, callIf_not_taken target s⟩
  | true => exact ⟨_, callIf_taken_eq_check target s⟩

/-! ### All instructions -/

/-- Every instruction checks the addresses of R58 in their order, and nothing else in it can fail. -/
theorem exec_eq_check (i : Instr) (s : State) :
    ∃ t, exec i s = commit ((checkAll s.window (accesses i s)).map fun _ => t) := by
  cases i with
  | lda addr => exact ⟨_, loadA_eq_check addr _ s⟩
  | ldax rp => exact accesses_ldax rp s ▸ ⟨_, loadA_eq_check (s.pointer rp) _ s⟩
  | sta addr => exact ⟨_, storeA_eq_check addr _ s⟩
  | stax rp => exact accesses_stax rp s ▸ ⟨_, storeA_eq_check (s.pointer rp) _ s⟩
  | lhld addr => exact ⟨_, execLhld_eq_check addr s⟩
  | shld addr => exact ⟨_, execShld_eq_check addr s⟩
  | push rp => exact ⟨_, execPush_eq_check rp s⟩
  | pop rp => exact ⟨_, execPop_eq_check rp s⟩
  | ret => exact ⟨_, execRet_eq_check s⟩
  | call | cnz | cz | cnc | cc | cpo | cpe | cp | cm => exact callIf_eq_check _ _ s
  | mov | mvi | lxi | xchg | hlt | add | adc | adi | aci | sub | sbb | sui | inr | dcr | cmp | cpi => exact ⟨_, rfl⟩
  | ana | ani | ora | xra | cma | cmc | rlc | rrc | ral | rar => exact ⟨_, rfl⟩
  | jmp | jnz | jz | jnc | jc | jpo | jpe | jp | jm => exact ⟨_, rfl⟩

/-- Settles O17: what the check of the accesses answers, the instruction answers. -/
theorem instructionCompletesWhenItsAccessesAreInside : Obligations.InstructionCompletesWhenItsAccessesAreInside := by
  intro i s
  obtain ⟨t, ht⟩ := exec_eq_check i s
  refine ⟨fun hin => ⟨t, ?_⟩, fun pre post addr hsplit hpre hout => ?_⟩
  · rw [ht, checkAll_inside hin]; rfl
  · rw [ht, hsplit, checkAll_first_outside post hpre hout]; rfl

theorem storesTo_stax (rp : PtrPair) (s : State) : storesTo (.stax rp) s = [s.pointer rp] := accesses_stax rp s

/-- A call that transfers stores to the two bytes below `SP` (R58, R220). -/
theorem storesTo_of_taken_call {i : Instr} {a : Word} {s : State} (hi : callTarget i = some a)
    (ht : taken i s = true) : storesTo i s = [s.sp - 1#16, s.sp - 2#16] := by
  cases i <;> cases hi <;> exact if_pos (e := []) ht

theorem call_keeps_other_memory {i : Instr} {a : Word} {s t : State} (hi : callTarget i = some a)
    (h : exec i s = .next t) : SameMemoryExcept (storesTo i s) s t := by
  rw [exec_eq_callIf hi] at h
  obtain ⟨ht, _, _, rfl⟩ | ⟨_, rfl⟩ := callIf_next h
  · rw [storesTo_of_taken_call hi ht]
    exact sameMemoryExcept_of_write_write rfl rfl
  · exact fun _ _ => rfl

/-- Settles O20: one or two stores where the table of R58 has them, and none in any other instruction. -/
theorem instructionsKeepOtherMemory : Obligations.InstructionsKeepOtherMemory := by
  intro i s t h
  cases i with
  | sta =>
    obtain ⟨_, rfl⟩ := storeA_next h
    exact sameMemoryExcept_of_write rfl rfl
  | stax rp =>
    obtain ⟨_, rfl⟩ := storeA_next h
    rw [storesTo_stax]
    exact sameMemoryExcept_of_write rfl rfl
  | shld =>
    obtain ⟨_, _, rfl⟩ := execShld_next h
    exact sameMemoryExcept_of_write_write rfl rfl
  | push =>
    obtain ⟨_, _, rfl⟩ := execPush_next h
    exact sameMemoryExcept_of_write_write rfl rfl
  | call | cnz | cz | cnc | cc | cpo | cpe | cp | cm => exact call_keeps_other_memory rfl h
  | lda | ldax => obtain ⟨_, rfl⟩ := loadA_next h; exact fun _ _ => rfl
  | lhld => obtain ⟨_, _, rfl⟩ := execLhld_next h; exact fun _ _ => rfl
  | pop => obtain ⟨_, _, rfl⟩ := execPop_next h; exact fun _ _ => rfl
  | ret => obtain ⟨_, _, rfl⟩ := execRet_next h; exact fun _ _ => rfl
  | jmp | jnz | jz | jnc | jc | jpo | jpe | jp | jm => cases (jumpIf_eq _ _ s).symm.trans h; exact fun _ _ => rfl
  | lxi dst => cases h; cases dst <;> exact fun _ _ => rfl
  | mov | mvi | xchg | hlt | add | adc | adi | aci | sub | sbb | sui | inr | dcr | cmp | cpi | ana | ani | ora | xra |
    cma | cmc | rlc | rrc | ral | rar => cases h; exact fun _ _ => rfl

end Sys2Proof.Machine
end

section
/-! PROOF. A store into code (R65, R305): what is encoded decodes again, so the fetch finds the stored instruction. -/

namespace Sys2Proof

theorem decode_operand16 {op : Byte} {mk : Word → Instr} (h : decodeOp op = some (.imm16 mk)) (v : Word)
    (rest : List Byte) : decode (op :: operand16 v ++ rest) = .ok (mk v, rest) := by
  have hdec := decode_imm16 h (lo8 v) (hi8 v) rest
  rw [Machine.wordOf_hi8_lo8] at hdec
  exact hdec

/-- Decoding the encoding of an instruction gives it back (R80, R81, R82), by the number of its operand bytes. -/
theorem decode_encode (i : Instr) (rest : List Byte) : decode (encode i ++ rest) = .ok (i, rest) := by
  cases i with
  | mov dst src => exact decode_complete (by cases dst <;> cases src <;> rfl) rest
  | add r | adc r | sub r | sbb r | inr r | dcr r | ana r | ora r | xra r | cmp r =>
    exact decode_complete (by cases r <;> rfl) rest
  | ldax rp | stax rp | push rp | pop rp => exact decode_complete (by cases rp <;> rfl) rest
  | xchg | cma | cmc | rlc | rrc | ral | rar | ret | hlt => exact decode_complete rfl rest
  | mvi r v => exact decode_imm8 (mk := .mvi r) (by rw [Instr.opcode]; cases r <;> rfl) v rest
  | adi v | aci v | sui v | ani v | cpi v => exact decode_imm8 (by rw [Instr.opcode]; rfl) v rest
  | lxi dst v =>
    refine decode_operand16 (mk := .lxi dst) ?_ v rest
    rw [Instr.opcode]
    cases dst with
    | sp => rfl
    | pair rp => cases rp <;> rfl
  | lda a | sta a | lhld a | shld a => exact decode_operand16 (by rw [Instr.opcode]; rfl) a rest
  | jmp a | jnz a | jz a | jnc a | jc a | jpo a | jpe a | jp a | jm a =>
    exact decode_operand16 (by rw [Instr.opcode]; rfl) a rest
  | call a | cnz a | cz a | cnc a | cc a | cpo a | cpe a | cp a | cm a =>
    exact decode_operand16 (by rw [Instr.opcode]; rfl) a rest

end Sys2Proof

namespace Sys2Proof.Machine

theorem bytesAtPc_singleton {s : State} {op : Byte} (h : s.readByte s.pc = .ok op) : BytesAtPc s [op] := by
  intro k v hk
  cases k with
  | zero =>
    cases hk
    simpa using h
  | succ k => simp at hk

/-- Settles O28: the next fetch reads the byte just stored, and that byte decodes to the instruction it encodes. -/
theorem storedInstructionRunsNext : Obligations.StoredInstructionRunsNext := by
  intro s j hwf hrun hin henc
  refine ⟨_, storeA_inside 3#16 hin, ?_⟩
  have hfetched := readByte_write_same hwf (t := { s with
    mem := Memory.write s.mem (s.pc + 3#16).toNat s.regs.a, pc := s.pc + 3#16 }) rfl rfl hin
  have hdecoded := decode_encode j []
  rw [henc] at hdecoded
  exact stepRunsTheDecodedInstruction _ j _ hrun hdecoded (bytesAtPc_singleton hfetched)

end Sys2Proof.Machine
end

section
/-! PROOF. Decoder and encoder agree in both directions (R80, R81, R86, R88): what an opcode byte selects is spelled
with that byte, and the bytes that select nothing are the 80 of R95. -/

namespace Sys2Proof

/-- Settles O1: the round trip that the store into code rests on. -/
theorem encodedInstructionDecodesToItself : Obligations.EncodedInstructionDecodesToItself := decode_encode

/-- Settles O6: each word is the encoding of its instruction, so it decodes to it. -/
theorem writtenWordsDecode : Obligations.WrittenWordsDecode :=
  ⟨decode_encode (.mov .b .a) [], decode_encode (.lxi (.pair .hl) 0x1234#16) [], decode_encode (.shld 0x0040#16) [],
    decode_encode .xchg [], decode_encode (.sbb .l) [], decode_encode (.aci 0xBE#8) [], decode_encode (.ora .c) [],
    decode_encode .cmc [], decode_encode .rar [], decode_encode (.cpi 0x40#8) [], decode_encode (.jpo 0x0123#16) [],
    decode_encode (.cc 0x0020#16) [], decode_encode .ret [], decode_encode (.push .de) [], decode_encode (.pop .hl) [],
    decode_encode .hlt []⟩

/-! ### The fields of an opcode byte -/

/-- The opcode byte is its three fields, and the highest chooses the part of the decoder that reads the other two. -/
theorem decodeOp_fields (op : Byte) : ∃ y z : BitVec 3,
    (op = 0b00#2 ++ y ++ z ∧ decodeOp op = decodeOp00 y z) ∨ (op = 0b01#2 ++ y ++ z ∧ decodeOp op = decodeOp01 y z) ∨
    (op = 0b10#2 ++ y ++ z ∧ decodeOp op = decodeOp10 y z) ∨
    (op = 0b11#2 ++ y ++ z ∧ decodeOp op = decodeOp11 y z) := by
  refine ⟨op.extractLsb' 3 3, op.extractLsb' 0 3, ?_⟩
  have hop : op = op.extractLsb' 6 2 ++ op.extractLsb' 3 3 ++ op.extractLsb' 0 3 := by
    rw [BitVec.extractLsb'_append_extractLsb'_eq_extractLsb' (start₁ := 3) (len₁ := 3) rfl,
      BitVec.extractLsb'_append_extractLsb'_eq_extractLsb' (start₁ := 0) (len₁ := 3) rfl, BitVec.extractLsb'_eq_self]
  have htop : op.extractLsb' 6 2 = 0b00#2 ∨ op.extractLsb' 6 2 = 0b01#2 ∨ op.extractLsb' 6 2 = 0b10#2 ∨
      op.extractLsb' 6 2 = 0b11#2 := by
    generalize op.extractLsb' 6 2 = x
    revert x
    decide
  rcases htop with h | h | h | h <;> rw [h] at hop
  · exact .inl ⟨hop, by simp [decodeOp, h]⟩
  · exact .inr (.inl ⟨hop, by simp [decodeOp, h]⟩)
  · exact .inr (.inr (.inl ⟨hop, by simp [decodeOp, h]⟩))
  · exact .inr (.inr (.inr ⟨hop, by simp [decodeOp, h]⟩))

theorem Reg.code_of_ofCode {f : BitVec 3} {r : Reg} (h : Reg.ofCode f = some r) : r.code = f := by
  unfold Reg.ofCode at h
  split at h <;> cases h <;> rfl

theorem Reg.eq_110_of_ofCode_eq_none {f : BitVec 3} (h : Reg.ofCode f = none) : f = 0b110#3 := by
  revert h f
  decide

theorem Pair.code_of_ofCode {f : BitVec 2} {rp : Pair} (h : Pair.ofCode f = some rp) : rp.code = f := by
  unfold Pair.ofCode at h
  split at h <;> cases h <;> rfl

/-- A register field that selects a template selects it by a register's code. -/
theorem exists_reg_of_field {f : BitVec 3} {mk : Reg → Template} {t : Template}
    (h : (Reg.ofCode f).map mk = some t) : ∃ r : Reg, f = r.code ∧ t = mk r := by
  obtain ⟨r, hr, rfl⟩ := Option.map_eq_some_iff.1 h
  exact ⟨r, (Reg.code_of_ofCode hr).symm, rfl⟩

/-- An even `y` is a pair field with a 0 bit below it (formats P and PI of R81). -/
theorem even_field {y : BitVec 3} (h : ¬y.getLsbD 0 = true) : y = y.extractLsb' 1 2 ++ 0#1 := by
  revert h y
  decide

/-- A pair field that selects a template selects it by a pair's code. -/
theorem exists_pair_of_field {y : BitVec 3} {mk : Pair → Template} {t : Template} (hy : ¬y.getLsbD 0 = true)
    (h : (Pair.ofCode (y.extractLsb' 1 2)).map mk = some t) : ∃ rp : Pair, y = rp.code ++ 0#1 ∧ t = mk rp := by
  obtain ⟨rp, hrp, rfl⟩ := Option.map_eq_some_iff.1 h
  exact ⟨rp, by rw [Pair.code_of_ofCode hrp, ← even_field hy], rfl⟩

/-- Every pair field of `lxi` is the code of the operand it names. -/
theorem LxiDest.opcode_of_field {y : BitVec 3} (hy : ¬y.getLsbD 0 = true) :
    0b00#2 ++ (LxiDest.ofCode (y.extractLsb' 1 2)).code ++ 0b0001#4 = 0b00#2 ++ y ++ 0b001#3 := by
  revert hy y
  decide

/-- The field value that the last branch of a match on `y` stands for. -/
theorem eq_111_of_ne : ∀ {y : BitVec 3}, (y = 0b000#3 → False) → (y = 0b001#3 → False) → (y = 0b010#3 → False) →
    (y = 0b011#3 → False) → (y = 0b100#3 → False) → (y = 0b101#3 → False) → (y = 0b110#3 → False) → y = 0b111#3 := by
  decide

/-! ### What an opcode byte selects is spelled with it -/

/-- `op`, followed by any operand bytes of the template's length, is the encoding of the instruction they make. -/
def Template.SpelledBy (op : Byte) : Template → Prop
  | .complete i => encode i = [op]
  | .imm8 mk => ∀ v, encode (mk v) = [op, v]
  | .imm16 mk => ∀ v, encode (mk v) = op :: operand16 v

theorem spelledBy_decodeOp00 {y z : BitVec 3} {t : Template} (h : decodeOp00 y z = some t) :
    t.SpelledBy (0b00#2 ++ y ++ z) := by
  unfold decodeOp00 at h
  split at h
  -- `lxi`
  case h_1 =>
    split_ifs at h with hy
    cases h
    exact fun v => congrArg (· :: operand16 v) (LxiDest.opcode_of_field hy)
  -- `stax`, `ldax` and the loads and stores of format A
  case h_2 =>
    split at h
    case h_8 h0 h1 h2 h3 h4 h5 h6 =>
      obtain rfl := eq_111_of_ne h0 h1 h2 h3 h4 h5 h6
      cases h
      exact fun _ => rfl
    case h_1 | h_2 | h_3 | h_4 => cases h; rfl
    all_goals
      cases h
      exact fun _ => rfl
  -- `inr` and `dcr`
  case h_3 | h_4 =>
    obtain ⟨r, rfl, rfl⟩ := exists_reg_of_field h
    cases r <;> rfl
  -- `mvi`
  case h_5 =>
    obtain ⟨r, rfl, rfl⟩ := exists_reg_of_field h
    cases r <;> exact fun _ => rfl
  -- the rotates, `cma` and `cmc`
  case h_6 => split at h <;> cases h <;> rfl
  case h_7 => cases h

theorem spelledBy_decodeOp01 {y z : BitVec 3} {t : Template} (h : decodeOp01 y z = some t) :
    t.SpelledBy (0b01#2 ++ y ++ z) := by
  unfold decodeOp01 at h
  split at h
  next dst r hy hz =>
    obtain rfl := Reg.code_of_ofCode hy
    obtain rfl := Reg.code_of_ofCode hz
    cases h
    rfl
  next hy hz =>
    obtain rfl := Reg.eq_110_of_ofCode_eq_none hy
    obtain rfl := Reg.eq_110_of_ofCode_eq_none hz
    cases h
    rfl
  next => cases h

theorem spelledBy_decodeOp10 {y z : BitVec 3} {t : Template} (h : decodeOp10 y z = some t) :
    t.SpelledBy (0b10#2 ++ y ++ z) := by
  obtain ⟨r, rfl, rfl⟩ := exists_reg_of_field h
  split
  case h_8 h0 h1 h2 h3 h4 h5 h6 =>
    obtain rfl := eq_111_of_ne h0 h1 h2 h3 h4 h5 h6
    rfl
  all_goals rfl

theorem spelledBy_decodeOp11 {y z : BitVec 3} {t : Template} (h : decodeOp11 y z = some t) :
    t.SpelledBy (0b11#2 ++ y ++ z) := by
  unfold decodeOp11 at h
  split at h
  -- `ret` and `pop`
  case h_1 =>
    split_ifs at h with hy hret
    · subst hret
      cases h
      rfl
    · obtain ⟨rp, rfl, rfl⟩ := exists_pair_of_field hy h
      cases rp <;> rfl
  -- the conditional jumps and calls
  case h_2 | h_4 =>
    split at h
    case h_8 h0 h1 h2 h3 h4 h5 h6 =>
      obtain rfl := eq_111_of_ne h0 h1 h2 h3 h4 h5 h6
      cases h
      exact fun _ => rfl
    all_goals
      cases h
      exact fun _ => rfl
  -- `jmp` and `xchg`
  case h_3 =>
    split at h
    case h_1 => cases h; exact fun _ => rfl
    case h_2 => cases h; rfl
    case h_3 => cases h
  -- `call` and `push`
  case h_5 =>
    split_ifs at h with hy hret
    · subst hret
      cases h
      exact fun _ => rfl
    · obtain ⟨rp, rfl, rfl⟩ := exists_pair_of_field hy h
      cases rp <;> rfl
  -- the immediate forms of format I
  case h_6 => split at h <;> cases h <;> exact fun _ => rfl
  case h_7 => cases h

/-- What an opcode byte selects is spelled with that byte, by the four parts of the decoder. -/
theorem spelledBy_of_decodeOp {op : Byte} {t : Template} (h : decodeOp op = some t) : t.SpelledBy op := by
  obtain ⟨y, z, ⟨rfl, hdec⟩ | ⟨rfl, hdec⟩ | ⟨rfl, hdec⟩ | ⟨rfl, hdec⟩⟩ := decodeOp_fields op <;> rw [hdec] at h
  · exact spelledBy_decodeOp00 h
  · exact spelledBy_decodeOp01 h
  · exact spelledBy_decodeOp10 h
  · exact spelledBy_decodeOp11 h

@[simp] theorem operand16_wordOf (hi lo : Byte) : operand16 (wordOf hi lo) = [lo, hi] := by
  rw [operand16, Machine.lo8_wordOf, Machine.hi8_wordOf]

/-- Settles O2: the opcode byte spells what it selects, and the operand bytes are embedded as they stand. -/
theorem decodedBytesAreTheEncoding : Obligations.DecodedBytesAreTheEncoding := by
  intro bytes i rest h
  obtain ⟨op, rfl, hop⟩ | ⟨op, b1, mk, rfl, hop, rfl⟩ | ⟨op, b1, b2, mk, rfl, hop, rfl⟩ := decode_eq_ok_iff.1 h
  · have henc : encode i = [op] := spelledBy_of_decodeOp hop
    rw [henc, List.singleton_append]
  · have henc : encode (mk b1) = [op, b1] := spelledBy_of_decodeOp hop b1
    rw [henc, List.cons_append, List.singleton_append]
  · have henc : encode (mk (wordOf b2 b1)) = op :: operand16 (wordOf b2 b1) := spelledBy_of_decodeOp hop _
    rw [henc, operand16_wordOf]
    rfl

/-! ### The unrecognised bytes -/

theorem decodeOp00_eq_none_iff : ∀ y z : BitVec 3,
    decodeOp00 y z = none ↔ (0b00#2 ++ y ++ z).toNat ∈ Stated.unrecognisedBytes := by decide

theorem decodeOp01_eq_none_iff : ∀ y z : BitVec 3,
    decodeOp01 y z = none ↔ (0b01#2 ++ y ++ z).toNat ∈ Stated.unrecognisedBytes := by decide

theorem decodeOp10_eq_none_iff : ∀ y z : BitVec 3,
    decodeOp10 y z = none ↔ (0b10#2 ++ y ++ z).toNat ∈ Stated.unrecognisedBytes := by decide

theorem decodeOp11_eq_none_iff : ∀ y z : BitVec 3,
    decodeOp11 y z = none ↔ (0b11#2 ++ y ++ z).toNat ∈ Stated.unrecognisedBytes := by decide

theorem decodeOp_eq_none_iff (op : Byte) : decodeOp op = none ↔ op.toNat ∈ Stated.unrecognisedBytes := by
  obtain ⟨y, z, ⟨rfl, hdec⟩ | ⟨rfl, hdec⟩ | ⟨rfl, hdec⟩ | ⟨rfl, hdec⟩⟩ := decodeOp_fields op <;> rw [hdec]
  · exact decodeOp00_eq_none_iff y z
  · exact decodeOp01_eq_none_iff y z
  · exact decodeOp10_eq_none_iff y z
  · exact decodeOp11_eq_none_iff y z

/-- The encoding is as long as the table of R86 says. -/
theorem length_encode (i : Instr) : (encode i).length = i.len := by cases i <;> rfl

/-- The opcode byte alone decides how many of three bytes the decoder takes (R80, R88). -/
theorem decode_three_bytes {op : Byte} {t : Template} (h : decodeOp op = some t) (b1 b2 : Byte) :
    ∃ i rest, decode [op, b1, b2] = .ok (i, rest) ∧ t.len + rest.length = 3 := by
  cases t with
  | complete i => exact ⟨i, [b1, b2], decode_complete h _, rfl⟩
  | imm8 mk => exact ⟨mk b1, [b2], decode_imm8 h b1 _, rfl⟩
  | imm16 mk => exact ⟨mk (wordOf b2 b1), [], decode_imm16 h b1 b2 [], rfl⟩

theorem opcode_len_of_decode {op : Byte} {bs rest : List Byte} {i : Instr} (h : decode (op :: bs) = .ok (i, rest)) :
    i.opcode = op ∧ i.len + rest.length = bs.length + 1 := by
  have hbytes := decodedBytesAreTheEncoding _ _ _ h
  refine ⟨(List.cons.inj hbytes).1.symm, ?_⟩
  rw [← length_encode, ← List.length_append, ← hbytes, List.length_cons]

/-- Settles O4: a byte outside the 80 selects a template, whose length every operand's instruction has. -/
theorem recognisedOpcodeTakesEveryOperand : Obligations.RecognisedOpcodeTakesEveryOperand := by
  intro op b1 b2 hop
  obtain ⟨t, ht⟩ := Option.ne_none_iff_exists'.1 (mt (decodeOp_eq_none_iff op).1 hop)
  have hevery (c1 c2 : Byte) : ∃ j rest, decode [op, c1, c2] = .ok (j, rest) ∧ j.opcode = op ∧ j.len + rest.length = 3 ∧
      j.len = t.len := by
    obtain ⟨j, rest, hj, hlen⟩ := decode_three_bytes ht c1 c2
    obtain ⟨hopcode, hjlen⟩ := opcode_len_of_decode hj
    exact ⟨j, rest, hj, hopcode, hjlen, Nat.add_right_cancel (hjlen.trans hlen.symm)⟩
  obtain ⟨i, rest, hi, hopcode, hsum, hlen⟩ := hevery b1 b2
  refine ⟨i, rest, hi, hopcode, hsum, fun c1 c2 => ?_⟩
  obtain ⟨j, rest', hj, hopcode', -, hlen'⟩ := hevery c1 c2
  exact ⟨j, rest', hj, hopcode', hlen'.trans hlen.symm⟩

end Sys2Proof

namespace Sys2Proof.Machine

/-- Settles O3: the bytes the decoder refuses are counted part by part, and the step reports the byte it fetched. -/
theorem theEightyUnrecognisedBytesRaiseDecodeError : Obligations.TheEightyUnrecognisedBytesRaiseDecodeError := by
  refine ⟨decodeOp_eq_none_iff, rfl, fun s op hrun hread hop => ?_⟩
  exact step_of_fetchInstr_error hrun (fetchInstr_unrecognised hread ((decodeOp_eq_none_iff op).2 hop))

end Sys2Proof.Machine
end

section
/-! PROOF. The eight conditions (R85). -/

namespace Sys2Proof.Machine

/-- Settles O43: the first of each pair is the negation of the second's flag, and the codes are the table of R85. -/
theorem conditionsTestOneFlag : Obligations.ConditionsTestOneFlag := by
  intro f
  have hnegated (b : Bool) : (!b) = true ↔ b = false := by rw [Bool.not_eq_true']
  exact ⟨hnegated f.z, Iff.rfl, hnegated f.cy, Iff.rfl, hnegated f.p, Iff.rfl, hnegated f.s, Iff.rfl,
    rfl, rfl, rfl, rfl, rfl, rfl, rfl, rfl⟩

end Sys2Proof.Machine
end

section
/-! PROOF. The flag generator in numbers (R126, R127), and what follows for the flags of every result (R128, R129) and
for `A` as both operands (R130). -/

namespace Sys2Proof.Machine
open Sys2Proof.Stated

/-! ### The flag generator is the table of R126 -/

theorem low8_eq_ofNat (raw : BitVec 9) : low8 raw = BitVec.ofNat 8 (raw.toNat % 256) := by
  apply BitVec.eq_of_toNat_eq
  simp [low8_toNat]

/-- Bit 7 of a byte: the same as 128 or more. -/
theorem sign_bit (v : Byte) : v.getLsbD 7 = decide (128 ≤ v.toNat) :=
  (BitVec.msb_eq_getLsbD_last v).symm.trans (BitVec.msb_eq_decide v)

theorem beq_zero_eq_decide (v : Byte) : (v == 0x00#8) = decide (v.toNat = 0) := by
  rw [beq_eq_decide]
  exact decide_eq_decide.2 BitVec.toNat_inj.symm

/-- The eight bits summed one by one are the 1 bits counted (R127). -/
theorem parity8_eq_evenOnes (v : Byte) : parity8 v = evenOnes v := by
  have hcount : onesIn v = (List.range 8).countP fun i => v.getLsbD i := by
    rw [show List.range 8 = [0, 1, 2, 3, 4, 5, 6, 7] from rfl]
    simp only [onesIn, bit, List.countP_cons, List.countP_nil]
    omega
  rw [parity8, evenOnes, hcount, List.countP_eq_length_filter]

theorem flagsOf_eq_resultFlags (raw : BitVec 9) :
    flagsOf raw = resultFlags (low8 raw) (decide (255 < raw.toNat)) := by
  rw [flagsOf, sign_bit, beq_zero_eq_decide, parity8_eq_evenOnes, carry_bit, resultFlags]

theorem flagsKeepCarry_eq_resultFlags (old : Flags) (raw : BitVec 9) :
    flagsKeepCarry old raw = resultFlags (low8 raw) old.cy := by
  rw [flagsKeepCarry, flagsOf_eq_resultFlags]; rfl

@[simp] theorem low8_setWidth (v : Byte) : low8 (v.setWidth 9) = v := by
  have := v.isLt
  apply BitVec.eq_of_toNat_eq
  rw [low8_toNat, BitVec.toNat_setWidth]
  omega

theorem flagsOfLogic_eq_resultFlags (v : Byte) : flagsOfLogic v = resultFlags v false := by
  rw [flagsOfLogic, flagsOf_eq_resultFlags, low8_setWidth]; rfl

/-- Settles O32: the five bits of the generator one by one, and the low byte as a number. -/
theorem flagGeneratorGivesTheFiveFlags : Obligations.FlagGeneratorGivesTheFiveFlags := by
  intro raw
  rw [flagsOf_eq_resultFlags, low8_eq_ofNat]

/-! ### The flags of a result are consistent (R129) -/

theorem resultFlags_zero (carry : Bool) :
    resultFlags 0x00#8 carry = { s := false, z := true, ac := false, p := true, cy := carry } := by
  cases carry <;> rfl

theorem resultFlags_z_iff {v : Byte} {carry : Bool} : (resultFlags v carry).z = true ↔ v = 0x00#8 := by
  rw [resultFlags, decide_eq_true_iff]
  exact BitVec.toNat_inj (y := 0x00#8)

theorem resultFlags_s_imp_ac {v : Byte} {carry : Bool} (h : (resultFlags v carry).s = true) :
    (resultFlags v carry).ac = true := by
  simp only [resultFlags, decide_eq_true_eq] at h ⊢
  omega

/-- The flags after an instruction that writes `Z` are those of its 8-bit result, with some carry (R29, R128). -/
theorem exec_flags_eq_resultFlags {i : Instr} {s t : State} (hz : FlagName.z ∈ flagsWritten i)
    (h : exec i s = .next t) : ∃ v carry, t.flags = resultFlags v carry := by
  cases i with
  | add | adc | adi | aci | sub | sbb | sui | cmp | cpi => cases h; exact ⟨_, _, flagsOf_eq_resultFlags _⟩
  | inr | dcr => cases h; exact ⟨_, _, flagsKeepCarry_eq_resultFlags _ _⟩
  | ana | ani | ora | xra => cases h; exact ⟨_, _, flagsOfLogic_eq_resultFlags _⟩
  | _ => simp [flagsWritten] at hz

/-! ### The raw difference of a compare, and of `A` with itself -/

theorem flagsOf_sub9_z_iff (a v : Byte) : (flagsOf (sub9 a v false)).z = true ↔ a = v := by
  have := a.isLt
  have := v.isLt
  rw [flagsOf_eq_resultFlags, resultFlags_z_iff, ← BitVec.toNat_inj, ← BitVec.toNat_inj, low8_toNat, sub9_toNat,
    bit_false, BitVec.toNat_ofNat]
  omega

theorem flagsOf_sub9_cy_iff (a v : Byte) : (flagsOf (sub9 a v false)).cy = true ↔ a.toNat < v.toNat := by
  have := a.isLt
  have := v.isLt
  rw [flagsOf_eq_resultFlags, resultFlags, decide_eq_true_iff, sub9_toNat, bit_false]
  omega

/-- A byte less itself leaves the borrow alone: nothing, or -1 in nine bits. -/
theorem sub9_self (a : Byte) (bin : Bool) : sub9 a a bin = if bin then 0x1FF#9 else 0#9 := by
  rw [sub9, BitVec.sub_self]
  cases bin <;> rfl

/-- Settles O41: every result's flags are consistent by the table of R126, and a compare's are those of the raw
difference of `A` and the operand. -/
theorem flagsAreConsistentAfterAResult : Obligations.FlagsAreConsistentAfterAResult := by
  intro i s t hz h
  obtain ⟨v, carry, hflags⟩ := exec_flags_eq_resultFlags hz h
  refine ⟨fun hzero => ?zero, fun hsign => ?sign, ?cmp, ?cpi⟩
  case zero =>
    rw [hflags, resultFlags_z_iff] at hzero
    rw [hflags, hzero, resultFlags_zero]
    exact ⟨rfl, rfl, rfl⟩
  case sign =>
    rw [hflags] at hsign ⊢
    exact resultFlags_s_imp_ac hsign
  case cmp =>
    rintro r rfl
    cases h
    exact ⟨flagsOf_sub9_z_iff _ _, flagsOf_sub9_cy_iff _ _⟩
  case cpi =>
    rintro v rfl
    cases h
    exact ⟨flagsOf_sub9_z_iff _ _, flagsOf_sub9_cy_iff _ _⟩

/-! ### `A` as both operands (R130) -/

theorem State.setReg_reg_same (s : State) (r : Reg) : s.setReg r (s.reg r) = s := by
  rw [State.setReg, State.reg_def, Regs.set_get_same]

theorem logicToA_reg_a (len : Word) (s : State) :
    logicToA (s.reg .a) len s = .next { s with flags := resultFlags s.regs.a false, pc := s.pc + len } := by
  rw [logicToA, State.setReg_reg_same, flagsOfLogic_eq_resultFlags]
  rfl

theorem low8_add9_self (a : Byte) : (low8 (add9 a a false)).toNat = 2 * a.toNat % 256 := by
  rw [low8_toNat, add9_toNat, bit_false, Nat.add_zero, Nat.two_mul]

/-- Settles O42: each case from what the operation answers on equal operands. -/
theorem sameRegisterAsBothOperands : Obligations.SameRegisterAsBothOperands := by
  intro s
  refine ⟨?mov, ⟨_, rfl, low8_add9_self _⟩, ?sub, ?xra, ?cmp, ?ana, ?ora, _, rfl, ?sbb, ?sbbCarry⟩
  case mov =>
    rw [exec, execMov, State.setReg_reg_same]
    rfl
  case sub =>
    rw [exec, execSub, sub9_self]
    rfl
  case xra =>
    rw [exec, execXra, BitVec.xor_self]
    rfl
  case cmp =>
    rw [exec, execCmp, compareA, sub9_self]
    rfl
  case ana =>
    rw [exec, execAna, BitVec.and_self, logicToA_reg_a]
  case ora =>
    rw [exec, execOra, BitVec.or_self, logicToA_reg_a]
  case sbb =>
    show low8 (sub9 _ _ _) = _
    rw [sub9_self]
    cases s.flags.cy <;> rfl
  case sbbCarry =>
    show (sub9 _ _ _).getLsbD 8 = _
    rw [sub9_self]
    cases s.flags.cy <;> rfl

end Sys2Proof.Machine
end

section
/-! PROOF. The outcomes of a step (R120 to R122, R252, R260 to R265): every way the fetch and an instruction can fail,
and what the host port answers for it. -/

namespace Sys2Proof.Machine
open Sys2Proof.Stated

/-! ### Inversion: everything a fault can be -/

/-- The fault is `AccessFault` of an address outside the window (R53, R261). -/
def OutsideFault (w : Window) (f : Fault) : Prop := ∃ addr, f = .accessFault addr ∧ inWindow w addr = false

theorem checkAll_error {w : Window} {addrs : List Word} {f : Fault} (h : checkAll w addrs = .error f) :
    OutsideFault w f := by
  induction addrs with
  | nil => cases h
  | cons addr addrs ih =>
    rw [checkAll_cons] at h
    split at h
    case isTrue => exact ih h
    case isFalse hout => cases h; exact ⟨addr, rfl, Bool.eq_false_iff.2 hout⟩

/-- An instruction completes or faults by an access outside the window; it is never refused (R266). -/
theorem exec_cases (i : Instr) (s : State) :
    (∃ t, exec i s = .next t) ∨ ∃ f, exec i s = .fault f ∧ OutsideFault s.window f := by
  obtain ⟨t, ht⟩ := exec_eq_check i s
  cases hc : checkAll s.window (accesses i s) with
  | ok _ => exact .inl ⟨t, by rw [ht, hc]; rfl⟩
  | error f => exact .inr ⟨f, by rw [ht, hc]; rfl, checkAll_error hc⟩

theorem readByte_error {s : State} {addr : Word} {f : Fault} (h : s.readByte addr = .error f) :
    OutsideFault s.window f := by
  obtain ⟨_, hread⟩ | ⟨hout, hread⟩ := readByte_cases s addr
  · rw [hread] at h; cases h
  · rw [hread] at h; cases h; exact ⟨addr, rfl, hout⟩

theorem fetchOperands_error {t : Template} {s : State} {f : Fault} (h : fetchOperands t s = .error f) :
    OutsideFault s.window f := by
  cases t with
  | complete i => cases h
  | imm8 mk =>
    cases hread : s.readByte (s.pc + 1#16) with
    | ok b1 => rw [fetchOperands_imm8 hread] at h; cases h
    | error g =>
      rw [fetchOperands, hread] at h
      cases h
      exact readByte_error hread
  | imm16 mk =>
    cases hread : s.readWord (s.pc + 1#16) with
    | ok a16 => rw [fetchOperands_imm16 hread] at h; cases h
    | error g =>
      rw [fetchOperands, hread] at h
      cases h
      obtain ⟨rfl, hout⟩ | ⟨rfl, _, hout⟩ := readWord_error hread
      · exact ⟨_, rfl, hout⟩
      · exact ⟨_, rfl, hout⟩

theorem fetchInstr_error {s : State} {f : Fault} (h : fetchInstr s = .error f) :
    (∃ op, f = .decodeError op ∧ s.readByte s.pc = .ok op ∧ decodeOp op = none) ∨ OutsideFault s.window f := by
  cases hread : s.readByte s.pc with
  | error g =>
    rw [fetchInstr, hread] at h
    cases h
    exact .inr (readByte_error hread)
  | ok op =>
    cases hd : decodeOp op with
    | none =>
      rw [fetchInstr_unrecognised hread hd] at h
      cases h
      exact .inl ⟨op, rfl, rfl, hd⟩
    | some t =>
      rw [fetchInstr_recognised hread hd] at h
      exact .inr (fetchOperands_error h)

/-- Settles O16, by the phases of the step: the halted stop, the failures of the fetch, those of the instruction. -/
theorem stepFailsOnlyAsTheSpecSays : Obligations.StepFailsOnlyAsTheSpecSays := by
  intro s
  cases hh : s.halted with
  | true =>
    rw [step_of_halted hh]
    refine ⟨nofun, fun f h => ?_⟩
    cases h
    exact .inl ⟨rfl, rfl⟩
  | false =>
    cases hf : fetchInstr s with
    | error g =>
      rw [step_of_fetchInstr_error hh hf]
      refine ⟨nofun, fun f h => ?_⟩
      cases h
      obtain ⟨op, rfl, hread, hd⟩ | hout := fetchInstr_error hf
      · exact .inr (.inl ⟨rfl, op, rfl, hread, (decodeOp_eq_none_iff op).1 hd⟩)
      · exact .inr (.inr ⟨rfl, hout⟩)
    | ok i =>
      rw [step_of_fetchInstr_ok hh hf]
      obtain ⟨t, ht⟩ | ⟨g, hg, hout⟩ := exec_cases i s
      · rw [ht]
        exact ⟨nofun, nofun⟩
      · rw [hg]
        refine ⟨nofun, fun f h => ?_⟩
        cases h
        exact .inr (.inr ⟨rfl, hout⟩)

/-! ### The order of the fetch's failures (R265) -/

theorem fetchOperands_first_outside {t : Template} {s : State} (ht : 2 ≤ t.len)
    (h1 : inWindow s.window (s.pc + 1#16) = false) : fetchOperands t s = .error (.accessFault (s.pc + 1#16)) := by
  cases t with
  | complete i => simp [Template.len] at ht
  | imm8 mk => rw [fetchOperands, readByte_outside h1]
  | imm16 mk => rw [fetchOperands, State.readWord, readByte_outside h1]

theorem fetchOperands_second_outside {t : Template} {s : State} (ht : t.len = 3)
    (h1 : inWindow s.window (s.pc + 1#16) = true) (h2 : inWindow s.window (s.pc + 2#16) = false) :
    fetchOperands t s = .error (.accessFault (s.pc + 2#16)) := by
  cases t with
  | complete i | imm8 mk => simp [Template.len] at ht
  | imm16 mk =>
    have hpc : s.pc + 1#16 + 1#16 = s.pc + 2#16 := BitVec.add_assoc _ _ _
    rw [← hpc] at h2 ⊢
    rw [fetchOperands, State.readWord, readByte_inside h1, readByte_outside h2]

/-- Settles O14: the step fails as the fetch does, and the fetch fails at the first phase that cannot go on. -/
theorem fetchFailuresComeInStepOrder : Obligations.FetchFailuresComeInStepOrder := by
  intro s hh
  refine ⟨fun hpc => ?pc, fun op hread hd => ?decode, fun op t hread hd hlen h1 => ?first,
    fun op t hread hd hlen h1 h2 => ?second⟩
  case pc => exact step_of_fetchInstr_error hh (fetchInstr_pc_outside hpc)
  case decode => exact step_of_fetchInstr_error hh (fetchInstr_unrecognised hread hd)
  case first =>
    exact step_of_fetchInstr_error hh
      ((fetchInstr_recognised hread hd).trans (fetchOperands_first_outside hlen h1))
  case second =>
    exact step_of_fetchInstr_error hh
      ((fetchInstr_recognised hread hd).trans (fetchOperands_second_outside hlen h1 h2))

/-! ### `STEP` at the host port -/

theorem hostStep_of_halted {s : State} (h : s.halted = true) : hostStep s = (.halted, s) := by
  rw [hostStep, step_of_halted h]

theorem hostStep_of_next {s t : State} (h : step s = .next t) : hostStep s = (.ok, t) := by rw [hostStep, h]

theorem hostStep_state_of_ne_ok {s : State} (h : (hostStep s).1 ≠ .ok) : (hostStep s).2 = s := by
  obtain ⟨t, ht, -⟩ | hsame := hostStep_state s
  · exact absurd (by rw [hostStep_of_next ht]) h
  · exact hsame

/-- Settles O15: the state is the one before, so the second `STEP` is the first again. -/
theorem failingStepChangesNothing : Obligations.FailingStepChangesNothing := by
  intro s h
  have hsame : (serve .step s).2 = s := hostStep_state_of_ne_ok h
  exact ⟨hsame, by rw [hsame]⟩

theorem hostPoke_halted (target : PokeTarget) (v : Nat) (s : State) :
    (hostPoke target v s).2.halted = s.halted := by
  cases target with
  | reg r => rfl
  | cell c =>
    rw [hostPoke]
    split <;> rfl

/-- Settles O12, request by request: all but `RESET` and `LOAD` keep `HALTED` at 1. -/
theorem haltedStepDoesNothing : Obligations.HaltedStepDoesNothing := by
  intro s hh
  have hstep : serve .step s = (.halted, s) := hostStep_of_halted hh
  refine ⟨hstep, fun r hr => ?_⟩
  cases r with
  | reset => exact .inl rfl
  | load image => exact .inr ⟨image, rfl⟩
  | step =>
    rw [hstep] at hr
    exact absurd hh (Bool.eq_false_iff.1 hr)
  | peek target => exact absurd hh (Bool.eq_false_iff.1 hr)
  | poke target v => exact absurd ((hostPoke_halted target v s).trans hh) (Bool.eq_false_iff.1 hr)

/-- Settles O13: a halted state has no `ok` step to begin the run with. -/
theorem noStepLeavesAHaltedState : Obligations.NoStepLeavesAHaltedState := by
  intro s t hrun hend
  cases hrun with
  | refl => rfl
  | next hstep _ =>
    rw [step_of_halted hend] at hstep
    cases hstep

end Sys2Proof.Machine
end

section
/-! PROOF. The data moves (R140 to R149): where the bytes come from and go to, and the first access that faults. -/

namespace Sys2Proof.Machine
open Sys2Proof.Stated

/-! ### The access that faults, for every instruction -/

/-- An instruction faults by its first access when that is outside the window (R58, R62). -/
theorem exec_first_outside {i : Instr} {s : State} {addr : Word} {post : List Word}
    (hacc : accesses i s = addr :: post) (h : inWindow s.window addr = false) :
    exec i s = .fault (.accessFault addr) :=
  (instructionCompletesWhenItsAccessesAreInside i s).2 [] post addr hacc (List.forall_mem_nil _) h

/-- An instruction faults by its second access when only the first is inside the window (R58, R62). -/
theorem exec_second_outside {i : Instr} {s : State} {first addr : Word} {post : List Word}
    (hacc : accesses i s = first :: addr :: post) (hfirst : inWindow s.window first = true)
    (h : inWindow s.window addr = false) : exec i s = .fault (.accessFault addr) :=
  (instructionCompletesWhenItsAccessesAreInside i s).2 [first] post addr hacc (List.forall_mem_singleton.2 hfirst) h

/-! ### Stores -/

/-- A completed store of `A`: the byte stored, the rest of memory, and the rest of the state (R144, R148). -/
theorem storeA_stores {s : State} {addr : Word} (len : Word) (hwf : Memory.wf s.mem)
    (h : inWindow s.window addr = true) :
    ∃ t, storeA addr len s = .next t ∧ t.readByte addr = .ok s.regs.a ∧ SameMemoryExcept [addr] s t ∧
      t = { s with mem := t.mem, pc := s.pc + len } :=
  ⟨_, storeA_inside len h, readByte_write_same hwf rfl rfl h, sameMemoryExcept_of_write rfl rfl, rfl⟩

theorem lo8_pair_hl (s : State) : lo8 (s.pair .hl) = s.regs.l := lo8_wordOf _ _
theorem hi8_pair_hl (s : State) : hi8 (s.pair .hl) = s.regs.h := hi8_wordOf _ _

theorem execShld_inside {s : State} {addr : Word} (h0 : inWindow s.window addr = true)
    (h1 : inWindow s.window (addr + 1#16) = true) :
    execShld addr s = .next { s with
      mem := Memory.write (Memory.write s.mem addr.toNat s.regs.l) (addr + 1#16).toNat s.regs.h,
      pc := s.pc + 3#16 } := by
  rw [execShld, writeWord_inside h0 h1, lo8_pair_hl, hi8_pair_hl]
  rfl

/-- Settles O31: the stores inside the window are read back and change no other address; outside it, the first access
outside is the fault. -/
theorem storesWriteMemory : Obligations.StoresWriteMemory := by
  intro s hwf
  refine ⟨fun a => ⟨rfl, storeA_stores 3#16 hwf, exec_first_outside rfl⟩,
    fun a => ⟨rfl, fun h0 h1 => ?shld, exec_first_outside rfl, exec_second_outside rfl⟩,
    fun rp addr haddr => ?stax⟩
  case shld =>
    obtain ⟨hlo, hhi⟩ := readByte_write_write (t := { s with
      mem := Memory.write (Memory.write s.mem a.toNat s.regs.l) (a + 1#16).toNat s.regs.h,
      pc := s.pc + 3#16 }) hwf rfl rfl (ne_add_one a) h0 h1
    exact ⟨_, execShld_inside h0 h1, hlo, hhi, sameMemoryExcept_of_write_write rfl rfl, rfl⟩
  case stax =>
    obtain rfl : addr = s.pointer rp := haddr.trans (by cases rp <;> rfl)
    exact ⟨rfl, storeA_stores 1#16 hwf, exec_first_outside (accesses_stax rp s)⟩

/-! ### Moves between registers -/

@[simp] theorem Regs.setPair_bc_wordOf (r : Regs) (hi lo : Byte) :
    r.setPair .bc (wordOf hi lo) = { r with b := hi, c := lo } := by
  rw [Regs.setPair, hi8_wordOf, lo8_wordOf]

@[simp] theorem Regs.setPair_de_wordOf (r : Regs) (hi lo : Byte) :
    r.setPair .de (wordOf hi lo) = { r with d := hi, e := lo } := by
  rw [Regs.setPair, hi8_wordOf, lo8_wordOf]

@[simp] theorem Regs.setPair_hl_wordOf (r : Regs) (hi lo : Byte) :
    r.setPair .hl (wordOf hi lo) = { r with h := hi, l := lo } := by
  rw [Regs.setPair, hi8_wordOf, lo8_wordOf]

theorem execLxi_pair (rp : Pair) (v : Word) (s : State) :
    execLxi (.pair rp) v s = .next { s with regs := s.regs.setPair rp v, pc := s.pc + 3#16 } := rfl

theorem execXchg_eq_setPair (s : State) :
    execXchg s = .next { s with
      regs := (s.regs.setPair .hl (wordOf s.regs.d s.regs.e)).setPair .de (wordOf s.regs.h s.regs.l),
      pc := s.pc + 1#16 } := rfl

/-- Settles O29: nothing can fail, and a pair is written as its two bytes. -/
theorem registerMovesComplete : Obligations.RegisterMovesComplete := by
  intro s
  refine ⟨fun dst src => ⟨rfl, rfl⟩, fun dst v => ⟨rfl, rfl⟩, fun dst b1 b2 => ⟨?lxiEncoding, ?lxi⟩, rfl, ?xchg⟩
  case lxiEncoding => exact congrArg (_ :: ·) (operand16_wordOf b2 b1)
  case lxi =>
    change execLxi dst (wordOf b2 b1) s = _
    cases dst with
    | sp => rfl
    | pair rp =>
      rw [execLxi_pair]
      cases rp with
      | bc => rw [Regs.setPair_bc_wordOf]
      | de => rw [Regs.setPair_de_wordOf]
      | hl => rw [Regs.setPair_hl_wordOf]
  case xchg => rw [exec, execXchg_eq_setPair, Regs.setPair_hl_wordOf, Regs.setPair_de_wordOf]

/-! ### Loads -/

theorem loadA_of_readByte {s : State} {addr : Word} {v : Byte} (len : Word) (h : s.readByte addr = .ok v) :
    loadA addr len s = .next { s with regs := { s.regs with a := v }, pc := s.pc + len } := by
  rw [loadA, h]
  rfl

theorem execLhld_of_readByte {s : State} {addr : Word} {lo hi : Byte} (hlo : s.readByte addr = .ok lo)
    (hhi : s.readByte (addr + 1#16) = .ok hi) :
    execLhld addr s = .next { s with regs := { s.regs with l := lo, h := hi }, pc := s.pc + 3#16 } := by
  rw [execLhld, readWord_of_readByte hlo hhi, commit_ok, State.setPair, Regs.setPair_hl_wordOf]
  rfl

/-- Settles O30: the bytes read go to the registers; outside the window, the first access outside is the fault. -/
theorem loadsReadMemory : Obligations.LoadsReadMemory := by
  intro s
  refine ⟨fun a => ⟨rfl, fun v => loadA_of_readByte 3#16, exec_first_outside rfl⟩,
    fun a => ⟨rfl, fun lo hi => execLhld_of_readByte, exec_first_outside rfl, exec_second_outside rfl⟩,
    fun rp addr haddr => ?ldax⟩
  obtain rfl : addr = s.pointer rp := haddr.trans (by cases rp <;> rfl)
  exact ⟨rfl, fun v => loadA_of_readByte 1#16, exec_first_outside (accesses_ldax rp s)⟩

end Sys2Proof.Machine
end

section
/-! PROOF. The arithmetic instructions (R160 to R168): the byte and the carry of a 9-bit raw result as the true sum or
difference, and the state that each shared operation leaves. -/

namespace Sys2Proof.Machine
open Sys2Proof.Stated

/-- The statements' number of a carry is the ALU's. -/
theorem bit_eq_carryIn (b : Bool) : bit b = carryIn b := rfl

/-! ### The raw sum and the raw difference, byte and flags (R125, R126) -/

theorem low8_add9 (a v : Byte) (cin : Bool) :
    low8 (add9 a v cin) = BitVec.ofNat 8 (a.toNat + v.toNat + carryIn cin) := by
  apply BitVec.eq_of_toNat_eq
  rw [low8_toNat, add9_toNat, bit_eq_carryIn, BitVec.toNat_ofNat]

theorem flagsOf_add9 (a v : Byte) (cin : Bool) :
    flagsOf (add9 a v cin) = resultFlags (BitVec.ofNat 8 (a.toNat + v.toNat + carryIn cin))
      (decide (255 < a.toNat + v.toNat + carryIn cin)) := by
  rw [flagsOf_eq_resultFlags, low8_add9, add9_toNat, bit_eq_carryIn]

theorem low8_sub9 (a v : Byte) (bin : Bool) : low8 (sub9 a v bin) = difference a v bin := by
  have := a.isLt
  have := v.isLt
  have := bit_le_one bin
  apply BitVec.eq_of_toNat_eq
  rw [low8_toNat, sub9_toNat, difference, BitVec.toNat_ofNat, ← bit_eq_carryIn]
  omega

/-- Bit 8 of the raw difference is the borrow, also when operand and borrow together reach 256. -/
theorem sub9_borrow_iff (a v : Byte) (bin : Bool) :
    255 < (sub9 a v bin).toNat ↔ a.toNat < v.toNat + carryIn bin := by
  have := a.isLt
  have := v.isLt
  have := bit_le_one bin
  rw [sub9_toNat, ← bit_eq_carryIn]
  omega

theorem flagsOf_sub9 (a v : Byte) (bin : Bool) : flagsOf (sub9 a v bin) = differenceFlags a v bin := by
  rw [flagsOf_eq_resultFlags, low8_sub9, decide_eq_decide.2 (sub9_borrow_iff a v bin), differenceFlags]

/-- Counting down is counting up by 255, modulo 256 (R168). -/
theorem difference_one (a : Byte) : difference a 0x01#8 false = BitVec.ofNat 8 (a.toNat + 255) :=
  congrArg (BitVec.ofNat 8) (Nat.add_sub_assoc (by decide : 1 ≤ 256) a.toNat)

/-! ### The state an operation leaves (R128) -/

theorem aluToA_add9 (v : Byte) (cin : Bool) (len : Word) (s : State) :
    aluToA (add9 (s.reg .a) v cin) len s = .next (afterSum s v cin len) := by
  rw [aluToA, low8_add9, flagsOf_add9]
  rfl

theorem aluToA_sub9 (v : Byte) (bin : Bool) (len : Word) (s : State) :
    aluToA (sub9 (s.reg .a) v bin) len s = .next (afterDifference s v bin len) := by
  rw [aluToA, low8_sub9, flagsOf_sub9]
  rfl

theorem stepReg_eq (r : Reg) (raw : BitVec 9) (s : State) :
    stepReg r raw s = .next { s with
      regs := s.regs.set r (low8 raw), flags := resultFlags (low8 raw) s.flags.cy, pc := s.pc + 1#16 } := by
  rw [stepReg, flagsKeepCarry_eq_resultFlags]
  rfl

/-! ### The three families -/

/-- Settles O33: each of the four is the sum in A, with its own operand and carry. -/
theorem addFamilyComputesTheSum : Obligations.AddFamilyComputesTheSum := fun s =>
  ⟨fun r => ⟨rfl, aluToA_add9 (s.reg r) false 1#16 s⟩, fun r => ⟨rfl, aluToA_add9 (s.reg r) s.flags.cy 1#16 s⟩,
    fun v => ⟨rfl, aluToA_add9 v false 2#16 s⟩, fun v => ⟨rfl, aluToA_add9 v s.flags.cy 2#16 s⟩⟩

/-- Settles O34: each of the three is the difference in A, with its own operand and borrow. -/
theorem subtractFamilyComputesTheDifference : Obligations.SubtractFamilyComputesTheDifference := fun s =>
  ⟨fun r => ⟨rfl, aluToA_sub9 (s.reg r) false 1#16 s⟩, fun r => ⟨rfl, aluToA_sub9 (s.reg r) s.flags.cy 1#16 s⟩,
    fun v => ⟨rfl, aluToA_sub9 v false 2#16 s⟩⟩

/-- Settles O35: the raw results are those of adding and subtracting 1, and only `CY` is not taken from them. -/
theorem incrementAndDecrementKeepCarry : Obligations.IncrementAndDecrementKeepCarry := by
  rintro s r up down rfl rfl
  refine ⟨⟨rfl, ?inr⟩, rfl, ?dcr⟩
  case inr =>
    have hup : low8 (add9 (s.reg r) 0x01#8 false) = BitVec.ofNat 8 ((s.regs.get r).toNat + 1) := low8_add9 _ _ _
    rw [exec, execInr, stepReg_eq, hup]
  case dcr =>
    have hdown : low8 (sub9 (s.reg r) 0x01#8 false) = BitVec.ofNat 8 ((s.regs.get r).toNat + 255) :=
      (low8_sub9 _ _ _).trans (difference_one _)
    rw [exec, execDcr, stepReg_eq, hdown]

end Sys2Proof.Machine
end

section
/-! PROOF. The logic instructions (R180 to R185): the state that a logic operation leaves in numbers, and the complement of
a byte as a difference. -/

namespace Sys2Proof.Machine
open Sys2Proof.Stated

/-- Only `A`, the flags of the result with `CY` cleared, and `pc` change (R128). -/
theorem logicToA_eq (v : Byte) (len : Word) (s : State) : logicToA v len s = .next (afterLogic s v len) := by
  rw [logicToA, flagsOfLogic_eq_resultFlags]
  rfl

/-- The eight bits inverted are `0xFF - A` (R184). -/
theorem not_eq_ofNat_sub (v : Byte) : ~~~v = BitVec.ofNat 8 (255 - v.toNat) := by
  apply BitVec.eq_of_toNat_eq
  rw [BitVec.toNat_not, BitVec.toNat_ofNat]
  omega

/-- Settles O36: each of the four is one logic operation on `A`, with its own operand and bitwise function. -/
theorem logicFamilyClearsCarry : Obligations.LogicFamilyClearsCarry := fun s =>
  ⟨fun r => ⟨rfl, logicToA_eq (s.reg .a &&& s.reg r) 1#16 s⟩, fun v => ⟨rfl, logicToA_eq (s.reg .a &&& v) 2#16 s⟩,
    fun r => ⟨rfl, logicToA_eq (s.reg .a ||| s.reg r) 1#16 s⟩,
    fun r => ⟨rfl, logicToA_eq (s.reg .a ^^^ s.reg r) 1#16 s⟩⟩

/-- Settles O37: `cma` by the complement as a difference; `cmc` writes `CY` and `pc` and nothing else. -/
theorem complementsTouchOneThing : Obligations.ComplementsTouchOneThing := by
  intro s
  refine ⟨⟨rfl, ?cma⟩, rfl, ?cmc⟩
  case cma =>
    rw [exec, execCma, not_eq_ofNat_sub]
    rfl
  case cmc => rfl

end Sys2Proof.Machine
end

section
/-! PROOF. The rotates (R190 to R193): the two shifts in numbers, and the full turn of a circle of bits. The circle of
`rlc` and `rrc` is A, that of `ral` and `rar` is `CY` and A as one value of nine bits. -/

namespace Sys2Proof.Machine
open Sys2Proof.Stated

/-! ### One rotate, in numbers -/

theorem toNat_append_eq_add {m n : Nat} (hi : BitVec m) (lo : BitVec n) :
    (hi ++ lo).toNat = 2 ^ n * hi.toNat + lo.toNat := by
  rw [BitVec.toNat_append, Nat.shiftLeft_eq, Nat.mul_comm, ← Nat.two_pow_add_eq_or_of_lt lo.isLt]

theorem toNat_ofBool_eq_carryIn (b : Bool) : (BitVec.ofBool b).toNat = carryIn b := by cases b <;> rfl

theorem shiftInLow_eq_ofNat (v : Byte) (low : Bool) :
    shiftInLow v low = BitVec.ofNat 8 (2 * v.toNat % 256 + carryIn low) := by
  have hle : carryIn low ≤ 1 := bit_le_one low
  apply BitVec.eq_of_toNat_eq
  rw [shiftInLow, toNat_append_eq_add, toNat_ofBool_eq_carryIn, BitVec.extractLsb'_toNat, BitVec.toNat_ofNat,
    Nat.shiftRight_zero]
  omega

theorem shiftInHigh_eq_ofNat (v : Byte) (high : Bool) :
    shiftInHigh v high = BitVec.ofNat 8 (v.toNat / 2 + carryIn high * 128) := by
  have hle : carryIn high ≤ 1 := bit_le_one high
  have := v.isLt
  apply BitVec.eq_of_toNat_eq
  rw [shiftInHigh, toNat_append_eq_add, toNat_ofBool_eq_carryIn, BitVec.extractLsb'_toNat, BitVec.toNat_ofNat,
    Nat.shiftRight_eq_div_pow]
  omega

/-- Bit 0 of a byte: the same as odd. -/
theorem low_bit (v : Byte) : v.getLsbD 0 = decide (v.toNat % 2 = 1) := Nat.testBit_zero _

theorem carryIn_sign_bit (v : Byte) : carryIn (v.getLsbD 7) = v.toNat / 128 := by
  have := v.isLt
  simp only [sign_bit, carryIn, decide_eq_true_eq]
  split <;> omega

theorem carryIn_low_bit (v : Byte) : carryIn (v.getLsbD 0) = v.toNat % 2 := by
  simp only [low_bit, carryIn, decide_eq_true_eq]
  split <;> omega

/-- A left rotate with any bit entering: `CY` takes the sign bit (R190, R192). -/
theorem rotateToA_left (low : Bool) (s : State) :
    rotateToA (shiftInLow (s.reg .a) low) ((s.reg .a).getLsbD 7) s =
      .next (afterRotate s (2 * s.regs.a.toNat % 256 + carryIn low) (decide (128 ≤ s.regs.a.toNat))) := by
  rw [shiftInLow_eq_ofNat, sign_bit]
  rfl

/-- A right rotate with any bit entering: `CY` takes the low bit (R191, R193). -/
theorem rotateToA_right (high : Bool) (s : State) :
    rotateToA (shiftInHigh (s.reg .a) high) ((s.reg .a).getLsbD 0) s =
      .next (afterRotate s (s.regs.a.toNat / 2 + carryIn high * 128) (decide (s.regs.a.toNat % 2 = 1))) := by
  rw [shiftInHigh_eq_ofNat, low_bit]
  rfl

/-- Settles O38: a left or a right rotate; the circular ones let the bit that leaves enter at the other end. -/
theorem rotatesMoveOneBit : Obligations.RotatesMoveOneBit := by
  rintro s n rfl
  refine ⟨⟨rfl, ?rlc⟩, ⟨rfl, ?rrc⟩, ⟨rfl, rotateToA_left s.flags.cy s⟩, rfl, rotateToA_right s.flags.cy s⟩
  case rlc =>
    rw [exec, execRlc, rotateToA_left, carryIn_sign_bit]
    rfl
  case rrc =>
    rw [exec, execRrc, rotateToA_right, carryIn_low_bit]
    rfl

/-! ### The full turn of a circle of bits -/

theorem rotateLeft_zero {w : Nat} (x : BitVec w) : x.rotateLeft 0 = x := by
  refine BitVec.eq_of_getMsbD_eq fun i hi => ?_
  rw [BitVec.getMsbD_rotateLeft, decide_eq_true hi, Bool.true_and, Nat.zero_add, Nat.mod_eq_of_lt hi]

theorem rotateLeft_rotateLeft {w : Nat} (x : BitVec w) (m n : Nat) :
    (x.rotateLeft m).rotateLeft n = x.rotateLeft (m + n) := by
  refine BitVec.eq_of_getMsbD_eq fun i hi => ?_
  have hlt : (n + i) % w < w := Nat.mod_lt _ (Nat.zero_lt_of_lt hi)
  simp only [BitVec.getMsbD_rotateLeft, hlt, decide_true, Bool.true_and, Nat.add_mod_mod, Nat.add_assoc]

theorem rotateLeft_iterate {w : Nat} (m : Nat) (x : BitVec w) (k : Nat) :
    (·.rotateLeft m)^[k] x = x.rotateLeft (m * k) := by
  induction k with
  | zero => exact (rotateLeft_zero x).symm
  | succ k ih => rw [Function.iterate_succ_apply', ih, rotateLeft_rotateLeft, Nat.mul_succ]

/-- A circle of `w` bits turned left `w` times, by any number of positions each time, is as it was. -/
theorem rotateLeft_iterate_width {w : Nat} (m : Nat) (x : BitVec w) : (·.rotateLeft m)^[w] x = x := by
  rw [rotateLeft_iterate, ← BitVec.rotateLeft_mod_eq_rotateLeft, Nat.mul_mod_left, rotateLeft_zero]

theorem rotateRight_eq_rotateLeft {w : Nat} (x : BitVec w) (m : Nat) : x.rotateRight m = x.rotateLeft (w - m % w) := by
  refine BitVec.eq_of_getMsbD_eq fun i hi => ?_
  have hm : m % w < w := Nat.mod_lt _ (Nat.zero_lt_of_lt hi)
  rw [BitVec.getMsbD_rotateRight, BitVec.getMsbD_rotateLeft]
  split
  case isTrue => rw [Nat.sub_add_comm hm.le]
  case isFalse h =>
    have hsum : w - m % w + i = w + (i - m % w) := by omega
    rw [hsum, Nat.add_mod_left, Nat.mod_eq_of_lt (Nat.sub_lt_of_lt hi)]

theorem rotateRight_iterate_width {w : Nat} (m : Nat) (x : BitVec w) : (·.rotateRight m)^[w] x = x := by
  simp only [rotateRight_eq_rotateLeft]
  exact rotateLeft_iterate_width _ x

/-! ### One rotate turns its circle by one position -/

theorem getLsbD_low8 (c : BitVec 9) {i : Nat} (hi : i < 8) : (low8 c).getLsbD i = c.getLsbD i := by
  rw [low8, BitVec.getLsbD_extractLsb', decide_eq_true hi, Bool.true_and, Nat.zero_add]

theorem getLsbD_shiftInLow (v : Byte) (low : Bool) {i : Nat} (hi : i < 8) :
    (shiftInLow v low).getLsbD i = if i < 1 then low else v.getLsbD (i - 1) := by
  have h7 : i - 1 < 7 := by omega
  rw [shiftInLow, BitVec.getLsbD_append, BitVec.getLsbD_extractLsb', decide_eq_true h7, Bool.true_and, Nat.zero_add,
    BitVec.getLsbD_ofBool]
  split
  case isTrue h => rw [decide_eq_true (Nat.lt_one_iff.1 h), Bool.true_and]
  case isFalse => rfl

theorem getLsbD_shiftInHigh (v : Byte) (high : Bool) {i : Nat} (hi : i < 8) :
    (shiftInHigh v high).getLsbD i = if i < 7 then v.getLsbD (1 + i) else high := by
  have h0 : i - 7 = 0 := by omega
  rw [shiftInHigh, BitVec.getLsbD_append, BitVec.getLsbD_extractLsb', h0, BitVec.getLsbD_ofBool]
  split
  case isTrue h => rw [decide_eq_true h, Bool.true_and]
  case isFalse => rfl

theorem getLsbD_rotateLeft_one {w : Nat} (hw : 1 < w) (x : BitVec w) {i : Nat} (hi : i < w) :
    (x.rotateLeft 1).getLsbD i = if i < 1 then x.getLsbD (w - 1 + i) else x.getLsbD (i - 1) := by
  rw [BitVec.getLsbD_rotateLeft_of_le hw, Bool.cond_decide, decide_eq_true hi, Bool.true_and]

theorem getLsbD_rotateRight_one {w : Nat} (hw : 1 < w) (x : BitVec w) {i : Nat} (hi : i < w) :
    (x.rotateRight 1).getLsbD i = if i < w - 1 then x.getLsbD (1 + i) else x.getLsbD (i - (w - 1)) := by
  rw [BitVec.getLsbD_rotateRight_of_lt hw, Bool.cond_decide, decide_eq_true hi, Bool.true_and]

theorem shiftInLow_sign (v : Byte) : shiftInLow v (v.getLsbD 7) = v.rotateLeft 1 := by
  refine BitVec.eq_of_getLsbD_eq fun i hi => ?_
  rw [getLsbD_shiftInLow _ _ hi, getLsbD_rotateLeft_one (by decide) _ hi]
  split
  case isTrue h => rw [Nat.lt_one_iff.1 h]
  case isFalse => rfl

theorem shiftInHigh_low (v : Byte) : shiftInHigh v (v.getLsbD 0) = v.rotateRight 1 := by
  refine BitVec.eq_of_getLsbD_eq fun i hi => ?_
  have h0 : i - 7 = 0 := by omega
  rw [getLsbD_shiftInHigh _ _ hi, getLsbD_rotateRight_one (by decide) _ hi, h0]

theorem shiftInLow_low8 (c : BitVec 9) : shiftInLow (low8 c) (c.getLsbD 8) = low8 (c.rotateLeft 1) := by
  refine BitVec.eq_of_getLsbD_eq fun i hi => ?_
  rw [getLsbD_shiftInLow _ _ hi, getLsbD_low8 _ hi, getLsbD_low8 _ (by omega),
    getLsbD_rotateLeft_one (by decide) _ (by omega)]
  split
  case isTrue h => rw [Nat.lt_one_iff.1 h]
  case isFalse => rfl

theorem shiftInHigh_low8 (c : BitVec 9) : shiftInHigh (low8 c) (c.getLsbD 8) = low8 (c.rotateRight 1) := by
  refine BitVec.eq_of_getLsbD_eq fun i hi => ?_
  rw [getLsbD_shiftInHigh _ _ hi, getLsbD_low8 _ hi, getLsbD_rotateRight_one (by decide) _ (by omega)]
  split
  case isTrue h => rw [getLsbD_low8 _ (by omega)]
  case isFalse h =>
    obtain rfl : i = 7 := by omega
    rfl

theorem low8_sign (c : BitVec 9) : (low8 c).getLsbD 7 = (c.rotateLeft 1).getLsbD 8 := by
  rw [getLsbD_low8 c (by decide), getLsbD_rotateLeft_one (by decide) c (by decide)]
  rfl

theorem low8_low (c : BitVec 9) : (low8 c).getLsbD 0 = (c.rotateRight 1).getLsbD 8 := by
  rw [getLsbD_low8 c (by decide), getLsbD_rotateRight_one (by decide) c (by decide)]
  rfl

/-! ### The circle that a state holds, and `n` rotates in a row -/

/-- A holds `v`, and every other register is that of `r`. -/
def HoldsA (r : Regs) (v : Byte) (s : State) : Prop := s.regs = { r with a := v }

/-- `CY` and A hold the nine bits of `c`, and every other flag and register is that of `f` and `r`. -/
def HoldsCarryA (r : Regs) (f : Flags) (c : BitVec 9) (s : State) : Prop :=
  s.regs = { r with a := low8 c } ∧ s.flags = { f with cy := c.getLsbD 8 }

theorem holdsCarryA_cons {r : Regs} {f : Flags} {cy : Bool} {a : Byte} {s : State} :
    HoldsCarryA r f (BitVec.cons cy a) s ↔ s.regs = { r with a := a } ∧ s.flags = { f with cy := cy } := by
  rw [HoldsCarryA, low8, BitVec.extractLsb'_cons, BitVec.getLsbD_cons, if_pos rfl]

theorem HoldsA.reg_a {r : Regs} {v : Byte} {s : State} (h : HoldsA r v s) : s.reg .a = v := congrArg Regs.a h

theorem HoldsCarryA.reg_a {r : Regs} {f : Flags} {c : BitVec 9} {s : State} (h : HoldsCarryA r f c s) :
    s.reg .a = low8 c := congrArg Regs.a h.1

theorem HoldsCarryA.cy {r : Regs} {f : Flags} {c : BitVec 9} {s : State} (h : HoldsCarryA r f c s) :
    s.flags.cy = c.getLsbD 8 := congrArg Flags.cy h.2

theorem rotateToA_holdsA {r : Regs} {v : Byte} {s : State} (h : HoldsA r v s) (v' : Byte) (out : Bool) :
    ∃ t, rotateToA v' out s = .next t ∧ HoldsA r v' t :=
  ⟨_, rfl, (congrArg (fun q : Regs => { q with a := v' }) h :)⟩

theorem rotateToA_holdsCarryA {r : Regs} {f : Flags} {c : BitVec 9} {s : State} (h : HoldsCarryA r f c s)
    (c' : BitVec 9) : ∃ t, rotateToA (low8 c') (c'.getLsbD 8) s = .next t ∧ HoldsCarryA r f c' t := by
  obtain ⟨hr, hf⟩ := h
  exact ⟨_, rfl, congrArg (fun q : Regs => { q with a := low8 c' }) hr,
    congrArg (fun g : Flags => { g with cy := c'.getLsbD 8 }) hf⟩

theorem exec_rlc_turns {r : Regs} (v : Byte) (s : State) (h : HoldsA r v s) :
    ∃ t, exec .rlc s = .next t ∧ HoldsA r (v.rotateLeft 1) t := by
  rw [exec, execRlc, h.reg_a, shiftInLow_sign]
  exact rotateToA_holdsA h _ _

theorem exec_rrc_turns {r : Regs} (v : Byte) (s : State) (h : HoldsA r v s) :
    ∃ t, exec .rrc s = .next t ∧ HoldsA r (v.rotateRight 1) t := by
  rw [exec, execRrc, h.reg_a, shiftInHigh_low]
  exact rotateToA_holdsA h _ _

theorem exec_ral_turns {r : Regs} {f : Flags} (c : BitVec 9) (s : State) (h : HoldsCarryA r f c s) :
    ∃ t, exec .ral s = .next t ∧ HoldsCarryA r f (c.rotateLeft 1) t := by
  rw [exec, execRal, h.reg_a, h.cy, shiftInLow_low8, low8_sign]
  exact rotateToA_holdsCarryA h _

theorem exec_rar_turns {r : Regs} {f : Flags} (c : BitVec 9) (s : State) (h : HoldsCarryA r f c s) :
    ∃ t, exec .rar s = .next t ∧ HoldsCarryA r f (c.rotateRight 1) t := by
  rw [exec, execRar, h.reg_a, h.cy, shiftInHigh_low8, low8_low]
  exact rotateToA_holdsCarryA h _

/-- When each execution of `i` completes and turns the circle that the state holds, so do `n` in a row. -/
theorem repeated_turns {α : Type} {i : Instr} {turn : α → α} {Holds : α → State → Prop}
    (hstep : ∀ c s, Holds c s → ∃ t, exec i s = .next t ∧ Holds (turn c) t) (n : Nat) :
    ∀ c s, Holds c s → ∃ t, repeated i n s = .next t ∧ Holds (turn^[n] c) t := by
  induction n with
  | zero => exact fun c s h => ⟨s, rfl, h⟩
  | succ n ih =>
    intro c s h
    obtain ⟨u, hu, hc⟩ := hstep c s h
    rw [repeated, hu]
    exact ih (turn c) u hc

/-- `n` turns that bring the circle back leave a state that holds it as before. -/
theorem repeated_full_turn {α : Type} {i : Instr} {turn : α → α} {Holds : α → State → Prop}
    (hstep : ∀ c s, Holds c s → ∃ t, exec i s = .next t ∧ Holds (turn c) t) {n : Nat} {c : α} {s : State}
    (hturn : turn^[n] c = c) (h : Holds c s) : ∃ t, repeated i n s = .next t ∧ Holds c t := by
  simpa only [hturn] using repeated_turns hstep n c s h

/-- Settles O39: the circle that a rotate turns has as many bits as there are rotates. -/
theorem fullTurnOfARotateRestores : Obligations.FullTurnOfARotateRestores := by
  intro s
  have hcarry : HoldsCarryA s.regs s.flags (BitVec.cons s.flags.cy s.regs.a) s := holdsCarryA_cons.2 ⟨rfl, rfl⟩
  obtain ⟨t, hral, ht⟩ := repeated_full_turn exec_ral_turns (rotateLeft_iterate_width 1 _) hcarry
  obtain ⟨u, hrar, hu⟩ := repeated_full_turn exec_rar_turns (rotateRight_iterate_width 1 _) hcarry
  exact ⟨repeated_full_turn exec_rlc_turns (rotateLeft_iterate_width 1 s.regs.a) rfl,
    repeated_full_turn exec_rrc_turns (rotateRight_iterate_width 1 s.regs.a) rfl,
    ⟨t, hral, holdsCarryA_cons.1 ht⟩, ⟨u, hrar, holdsCarryA_cons.1 hu⟩⟩

end Sys2Proof.Machine
end

section
/-! PROOF. The compares (R200, R201): a subtraction of which only the flags are kept. -/

namespace Sys2Proof.Machine
open Sys2Proof.Stated

theorem compareA_eq (v : Byte) (len : Word) (s : State) :
    compareA v len s = .next { s with flags := differenceFlags s.regs.a v false, pc := s.pc + len } := by
  have hflags : flagsOf (sub9 (s.reg .a) v false) = differenceFlags s.regs.a v false := flagsOf_sub9 _ _ _
  rw [compareA, hflags]
  rfl

/-- Settles O40: `cmp` and `cpi` are one comparison, each with its own operand and length. -/
theorem comparesSetFlagsOnly : Obligations.ComparesSetFlagsOnly := fun s =>
  ⟨fun r => ⟨rfl, compareA_eq (s.reg r) 1#16 s⟩, fun v => ⟨rfl, compareA_eq v 2#16 s⟩⟩

end Sys2Proof.Machine
end

section
/-! PROOF. Control transfers (R211 to R230): a jump writes `pc`, a call also stores a word on the stack, `ret` reads it
back. -/

namespace Sys2Proof.Machine
open Sys2Proof.Stated

/-! ### Jumps -/

/-- A jump in terms of the flag value it needs: only `pc` changes (R210). -/
theorem exec_jump {i : Instr} {a : Word} {s : State} {p : Prop} [Decidable p] (hi : jumpTarget i = some a)
    (hp : taken i s = true ↔ p) : exec i s = .next { s with pc := if p then a else s.pc + 3#16 } := by
  rw [exec_eq_jumpIf hi, jumpIf_eq, if_congr hp rfl rfl]

/-- Settles O44: each jump transfers by the one flag that its condition tests. -/
theorem jumpsWriteOnlyThePc : Obligations.JumpsWriteOnlyThePc := by
  intro s a
  obtain ⟨hnz, hz, hnc, hc, hpo, hpe, hp, hm, _⟩ := conditionsTestOneFlag s.flags
  exact ⟨⟨rfl, rfl⟩, ⟨rfl, exec_jump rfl hnz⟩, ⟨rfl, exec_jump rfl hz⟩, ⟨rfl, exec_jump rfl hnc⟩,
    ⟨rfl, exec_jump rfl hc⟩, ⟨rfl, exec_jump rfl hpo⟩, ⟨rfl, exec_jump rfl hpe⟩, ⟨rfl, exec_jump rfl hp⟩,
    ⟨rfl, exec_jump rfl hm⟩⟩

/-! ### The return from a call -/

theorem execRet_of_readByte {s : State} {lo hi : Byte} (hlo : s.readByte s.sp = .ok lo)
    (hhi : s.readByte (s.sp + 1#16) = .ok hi) :
    execRet s = .next { s with pc := wordOf hi lo, sp := s.sp + 2#16 } := by
  rw [execRet, popWord_eq_ok.2 ⟨readWord_of_readByte hlo hhi, rfl⟩]
  rfl

/-- Settles O46: the word read at `SP` is the new `pc`; outside the window, the first access outside is the fault. -/
theorem retPopsThePc : Obligations.RetPopsThePc := fun _ =>
  ⟨rfl, fun _ _ => execRet_of_readByte, exec_first_outside rfl, exec_second_outside rfl⟩

/-! ### Calls -/

/-- A completed push: the two bytes stored, the rest of memory, and the rest of the state (R220, R240). -/
theorem pushWord_stores {s : State} (v : Word) (hwf : Memory.wf s.mem) (h1 : inWindow s.window (s.sp - 1#16) = true)
    (h2 : inWindow s.window (s.sp - 2#16) = true) :
    ∃ t, s.pushWord v = .ok t ∧ t.readByte (s.sp - 1#16) = .ok (hi8 v) ∧ t.readByte (s.sp - 2#16) = .ok (lo8 v) ∧
      SameMemoryExcept [s.sp - 1#16, s.sp - 2#16] s t ∧ t = { s with mem := t.mem, sp := s.sp - 2#16 } := by
  have hpush := pushWord_inside h1 h2 v
  obtain ⟨hhi, hlo⟩ := readByte_write_write (t := { s with
    mem := Memory.write (Memory.write s.mem (s.sp - 1#16).toNat (hi8 v)) (s.sp - 2#16).toNat (lo8 v),
    sp := s.sp - 2#16 }) hwf rfl rfl (sub_one_ne_sub_two s.sp) h1 h2
  exact ⟨_, hpush, hhi, hlo, sameMemoryExcept_of_write_write rfl rfl, rfl⟩

theorem callIf_of_pushWord {s u : State} (target : Word) (h : s.pushWord (s.pc + 3#16) = .ok u) :
    callIf true target s = .next { u with pc := target } := by
  rw [callIf, if_pos rfl, h]
  rfl

section
variable {i : Instr} {a : Word} {s : State} (hi : callTarget i = some a)
include hi

theorem exec_call_not_taken (ht : taken i s = false) : exec i s = .next { s with pc := s.pc + 3#16 } := by
  rw [exec_eq_callIf hi, ht, callIf_not_taken]
  rfl

/-- A call that transfers accesses the two bytes below `SP` (R58, R220). -/
theorem accesses_of_taken_call (ht : taken i s = true) : accesses i s = [s.sp - 1#16, s.sp - 2#16] := by
  have hstores : storesTo i s = accesses i s := by cases i <;> cases hi <;> rfl
  rw [← hstores, storesTo_of_taken_call hi ht]

/-- A completed call that transfers: the return address on the stack, the rest of memory, and the rest of the state
(R220). -/
theorem exec_call_stores (ht : taken i s = true) (hwf : Memory.wf s.mem)
    (h1 : inWindow s.window (s.sp - 1#16) = true) (h2 : inWindow s.window (s.sp - 2#16) = true) :
    ∃ t, exec i s = .next t ∧ t.readByte (s.sp - 1#16) = .ok (hi8 (s.pc + 3#16)) ∧
      t.readByte (s.sp - 2#16) = .ok (lo8 (s.pc + 3#16)) ∧ SameMemoryExcept [s.sp - 1#16, s.sp - 2#16] s t ∧
      t = { s with mem := t.mem, sp := s.sp - 2#16, pc := a } := by
  obtain ⟨u, hpush, hhi, hlo, hmem, hrest⟩ := pushWord_stores (s.pc + 3#16) hwf h1 h2
  refine ⟨{ u with pc := a }, ?_, hhi, hlo, hmem, by rw [hrest]⟩
  rw [exec_eq_callIf hi, ht, callIf_of_pushWord a hpush]

end

/-- The table of the nine calls: opcode byte, and the condition as the value of one flag (R221 to R229). -/
theorem callForms_spec (a : Word) (s : State) : ∀ form ∈ callForms a s.flags,
    callTarget form.1 = some a ∧ encode form.1 = [form.2.1, lo8 a, hi8 a] ∧ taken form.1 s = form.2.2 := by
  simp only [callForms, List.forall_mem_cons]
  exact ⟨⟨rfl, rfl, rfl⟩, ⟨rfl, rfl, (beq_false _).symm⟩, ⟨rfl, rfl, (beq_true _).symm⟩,
    ⟨rfl, rfl, (beq_false _).symm⟩, ⟨rfl, rfl, (beq_true _).symm⟩, ⟨rfl, rfl, (beq_false _).symm⟩,
    ⟨rfl, rfl, (beq_true _).symm⟩, ⟨rfl, rfl, (beq_false _).symm⟩, ⟨rfl, rfl, (beq_true _).symm⟩,
    List.forall_mem_nil _⟩

/-- Settles O45: the nine forms differ in opcode and condition only; what a call does is said of any call. -/
theorem callsPushTheReturnAddress : Obligations.CallsPushTheReturnAddress := by
  intro s a hwf form hform
  obtain ⟨hcall, hencode, htaken⟩ := callForms_spec a s form hform
  rw [← htaken, ← hi8_eq_ofNat, ← lo8_eq_ofNat]
  exact ⟨hencode, exec_call_not_taken hcall, fun ht => exec_call_stores hcall ht hwf,
    fun ht => exec_first_outside (accesses_of_taken_call hcall ht),
    fun ht => exec_second_outside (accesses_of_taken_call hcall ht)⟩

/-- Settles O47: `ret` reads the two bytes that `call` stored, and they are the return address. -/
theorem retUndoesCall : Obligations.RetUndoesCall := by
  intro s a hwf h1 h2
  obtain ⟨t, hcall, hhi, hlo, hmem, hrest⟩ := exec_call_stores (i := .call a) rfl rfl hwf h1 h2
  have hregs : t.regs = s.regs := by rw [hrest]
  have hflags : t.flags = s.flags := by rw [hrest]
  have hsp : t.sp = s.sp - 2#16 := by rw [hrest]
  have hback : t.sp + 2#16 = s.sp := by rw [hsp, sub_two_add_two]
  rw [← hsp] at hlo
  rw [← sub_two_add_one, ← hsp] at hhi
  exact ⟨t, _, hcall, execRet_of_readByte hlo hhi, wordOf_hi8_lo8 _, hback, hregs, hflags, hmem⟩

end Sys2Proof.Machine
end

section
/-! PROOF. The stack and `hlt` (R240 to R242, R250): what an instruction pushes is the top stack item, and the next
instruction that pops takes it, whichever of `push`, `call`, `pop`, `ret` the two are. -/

namespace Sys2Proof.Machine
open Sys2Proof.Stated

/-! ### A pair and its two registers -/

/-- The pairs with their high and low registers (R6, R23). -/
abbrev pairTable : List (Pair × Reg × Reg) := [(Pair.bc, Reg.b, Reg.c), (.de, .d, .e), (.hl, .h, .l)]

theorem pair_eq_wordOf (s : State) :
    ∀ row ∈ pairTable, s.pair row.1 = wordOf (s.reg row.2.1) (s.reg row.2.2) := by
  simp only [pairTable, List.forall_mem_cons]
  exact ⟨rfl, rfl, rfl, List.forall_mem_nil _⟩

theorem Regs.setPair_wordOf (r : Regs) (vhi vlo : Byte) :
    ∀ row ∈ pairTable, r.setPair row.1 (wordOf vhi vlo) = (r.set row.2.2 vlo).set row.2.1 vhi := by
  simp only [pairTable, List.forall_mem_cons]
  exact ⟨Regs.setPair_bc_wordOf r vhi vlo, Regs.setPair_de_wordOf r vhi vlo, Regs.setPair_hl_wordOf r vhi vlo,
    List.forall_mem_nil _⟩

/-! ### `push` and `pop` -/

/-- A completed `push`: the two bytes stored, the rest of memory, and the rest of the state (R240). -/
theorem execPush_stores {s : State} (rp : Pair) (hwf : Memory.wf s.mem) (h1 : inWindow s.window (s.sp - 1#16) = true)
    (h2 : inWindow s.window (s.sp - 2#16) = true) :
    ∃ t, execPush rp s = .next t ∧ t.readByte (s.sp - 1#16) = .ok (hi8 (s.pair rp)) ∧
      t.readByte (s.sp - 2#16) = .ok (lo8 (s.pair rp)) ∧ SameMemoryExcept [s.sp - 1#16, s.sp - 2#16] s t ∧
      t = { s with mem := t.mem, sp := s.sp - 2#16, pc := s.pc + 1#16 } := by
  obtain ⟨u, hpush, hhi, hlo, hmem, hrest⟩ := pushWord_stores (s.pair rp) hwf h1 h2
  have hpc : u.pc = s.pc := by rw [hrest]
  refine ⟨u.advance 1#16, ?_, hhi, hlo, hmem, by rw [State.advance, hpc, hrest]⟩
  rw [execPush, hpush]
  rfl

/-- Settles O48: the pair is its two registers; outside the window, the first access outside is the fault. -/
theorem pushStoresThePair : Obligations.PushStoresThePair := by
  intro s rp hi lo hwf hmem
  refine ⟨rfl, fun h1 h2 => ?_, exec_first_outside rfl, exec_second_outside rfl⟩
  have hpair : s.pair rp = wordOf (s.reg hi) (s.reg lo) := pair_eq_wordOf s _ hmem
  have hstores := execPush_stores rp hwf h1 h2
  rwa [hpair, hi8_wordOf, lo8_wordOf] at hstores

theorem execPop_of_readWord {s : State} {v : Word} (rp : Pair) (h : s.readWord s.sp = .ok v) :
    execPop rp s = .next { s with regs := s.regs.setPair rp v, sp := s.sp + 2#16, pc := s.pc + 1#16 } := by
  rw [execPop, popWord_eq_ok.2 ⟨h, rfl⟩]
  rfl

theorem execRet_of_readWord {s : State} {v : Word} (h : s.readWord s.sp = .ok v) :
    execRet s = .next { s with pc := v, sp := s.sp + 2#16 } := by
  rw [execRet, popWord_eq_ok.2 ⟨h, rfl⟩]
  rfl

/-- Settles O49: the word read at `SP` goes to the two registers of the pair; outside the window, the first access
outside is the fault. -/
theorem popLoadsThePair : Obligations.PopLoadsThePair := by
  intro s rp hi lo hmem
  refine ⟨rfl, fun vlo vhi hlo hhi => ?_, exec_first_outside rfl, exec_second_outside rfl⟩
  have hregs : s.regs.setPair rp (wordOf vhi vlo) = (s.regs.set lo vlo).set hi vhi :=
    Regs.setPair_wordOf s.regs vhi vlo _ hmem
  rw [← hregs]
  exact execPop_of_readWord rp (readWord_of_readByte hlo hhi)

/-! ### The top stack item -/

/-- The top item on the stack of `t` is `v`, and taking it off leaves the stack pointer at `sp`. -/
def TopItem (v sp : Word) (t : State) : Prop := t.readWord t.sp = .ok v ∧ t.sp + 2#16 = sp

/-- The two bytes stored below `SP`, with `SP` lowered to them, are the top item. -/
theorem topItem_of_readByte {sp v : Word} {t : State} (hsp : t.sp = sp - 2#16)
    (hhi : t.readByte (sp - 1#16) = .ok (hi8 v)) (hlo : t.readByte (sp - 2#16) = .ok (lo8 v)) : TopItem v sp t := by
  rw [← sub_two_add_one] at hhi
  refine ⟨?_, by rw [hsp, sub_two_add_two]⟩
  rw [hsp, readWord_of_readByte hlo hhi, wordOf_hi8_lo8]

section
variable {s : State} (hwf : Memory.wf s.mem) (h1 : inWindow s.window (s.sp - 1#16) = true)
  (h2 : inWindow s.window (s.sp - 2#16) = true)
include hwf h1 h2

theorem execPush_topItem (rp : Pair) : ∃ t, exec (.push rp) s = .next t ∧ TopItem (s.pair rp) s.sp t := by
  obtain ⟨t, hpush, hhi, hlo, _, hrest⟩ := execPush_stores rp hwf h1 h2
  exact ⟨t, hpush, topItem_of_readByte (by rw [hrest]) hhi hlo⟩

theorem execCall_topItem (a : Word) : ∃ t, exec (.call a) s = .next t ∧ TopItem (s.pc + 3#16) s.sp t := by
  obtain ⟨t, hcall, hhi, hlo, _, hrest⟩ := exec_call_stores (i := .call a) rfl rfl hwf h1 h2
  exact ⟨t, hcall, topItem_of_readByte (by rw [hrest]) hhi hlo⟩

end

theorem TopItem.execPop {t : State} {v sp : Word} (h : TopItem v sp t) (rq : Pair) :
    ∃ u, exec (.pop rq) t = .next u ∧ u.pair rq = v ∧ u.sp = sp :=
  ⟨_, execPop_of_readWord rq h.1, Regs.getPair_setPair_same t.regs rq v, h.2⟩

theorem TopItem.execRet {t : State} {v sp : Word} (h : TopItem v sp t) :
    ∃ u, exec .ret t = .next u ∧ u.pc = v ∧ u.sp = sp := ⟨_, execRet_of_readWord h.1, rfl, h.2⟩

/-- Settles O50: each first instruction leaves its value as the top stack item, and each second one takes it. -/
theorem stackItemsMoveBetweenPairsAndPc : Obligations.StackItemsMoveBetweenPairsAndPc := by
  intro s hwf h1 h2
  refine ⟨fun rp rq => ?pushPop, fun rp => ?pushRet, fun a rq => ?callPop⟩
  case pushPop =>
    obtain ⟨t, hpush, hitem⟩ := execPush_topItem hwf h1 h2 rp
    obtain ⟨u, hpop, hu⟩ := hitem.execPop rq
    exact ⟨t, u, hpush, hpop, hu⟩
  case pushRet =>
    obtain ⟨t, hpush, hitem⟩ := execPush_topItem hwf h1 h2 rp
    obtain ⟨u, hret, hu⟩ := hitem.execRet
    exact ⟨t, u, hpush, hret, hu⟩
  case callPop =>
    obtain ⟨t, hcall, hitem⟩ := execCall_topItem hwf h1 h2 a
    obtain ⟨u, hpop, hu⟩ := hitem.execPop rq
    exact ⟨t, u, hcall, hpop, hu⟩

/-! ### `hlt` -/

/-- Settles O51: the meaning of `hlt` writes `HALTED`, and a halted unit answers `STEP` with `halted`. -/
theorem hltSetsHalted : Obligations.HltSetsHalted := by
  intro s t ht
  have hhalted : t.halted = true := by rw [ht]
  exact ⟨rfl, by rw [ht]; rfl, hostStep_of_halted hhalted⟩

end Sys2Proof.Machine
end

section
/-! PROOF. The host port (R290, R292, R298 to R300): the cell that an address or an index names, what `PEEK` and `POKE`
answer for it, and the state after `RESET` and `LOAD`. -/

namespace Sys2Proof.Machine
open Sys2Proof.Stated

/-! ### The cell that an address or an index names (R33, R298) -/

theorem cellAddress_address_inside {w : Window} {addr : Word} (h : inWindow w addr = true) :
    cellAddress w (.address addr) = some addr := if_pos h

theorem cellAddress_address_outside {w : Window} {addr : Word} (h : inWindow w addr = false) :
    cellAddress w (.address addr) = none := if_neg (Bool.eq_false_iff.1 h)

theorem cellAddress_index_inside {w : Window} {i : Nat} (h : i < w.size) :
    cellAddress w (.index i) = some (w.base + BitVec.ofNat 16 i) := if_pos h

theorem cellAddress_index_outside {w : Window} {i : Nat} (h : w.size ≤ i) : cellAddress w (.index i) = none :=
  if_neg (Nat.not_lt.2 h)

/-- Counting up from `MEM_BASE` does not wrap inside an admissible window. -/
theorem toNat_base_add {w : Window} (hw : w.Admissible) {i : Nat} (h : i < w.size) :
    (w.base + BitVec.ofNat 16 i).toNat = w.base.toNat + i := by
  have := hw.2
  rw [BitVec.toNat_add, BitVec.toNat_ofNat]
  omega

/-! ### `PEEK` (R298) -/

theorem hostPeek_cell {s : State} {c : CellRef} {addr : Word} {v : Byte} (hc : cellAddress s.window c = some addr)
    (hv : s.readByte addr = .ok v) : hostPeek (.cell c) s = .byte v := by
  rw [hostPeek, hc, (readByte_eq_ok.1 hv).2]

theorem hostPeek_no_cell {s : State} {c : CellRef} (hc : cellAddress s.window c = none) :
    hostPeek (.cell c) s = .refused .outsideWindow := by rw [hostPeek, hc]

/-- Settles O53: `PEEK` of a cell is a read at the address the cell is found at. -/
theorem peekReadsAndChangesNothing : Obligations.PeekReadsAndChangesNothing := fun _ =>
  ⟨fun _ => rfl, fun _ => rfl, fun _ => rfl, rfl, rfl, rfl,
    fun _ _ hv => hostPeek_cell (cellAddress_address_inside (readByte_eq_ok.1 hv).1) hv,
    fun _ _ hi hv => hostPeek_cell (cellAddress_index_inside hi) hv,
    fun _ ha => hostPeek_no_cell (cellAddress_address_outside ha),
    fun _ hi => hostPeek_no_cell (cellAddress_index_outside hi)⟩

/-! ### `POKE` (R299) -/

theorem hostPoke_cell {s : State} {c : CellRef} {addr : Word} (v : Nat) (hc : cellAddress s.window c = some addr) :
    hostPoke (.cell c) v s = (.ok, { s with mem := Memory.write s.mem addr.toNat (BitVec.ofNat 8 v) }) := by
  rw [hostPoke, hc]

theorem hostPoke_no_cell {s : State} {c : CellRef} (v : Nat) (hc : cellAddress s.window c = none) :
    hostPoke (.cell c) v s = (.refused .outsideWindow, s) := by rw [hostPoke, hc]

theorem byte_ofNat_mod (v : Nat) : BitVec.ofNat 8 (v % 256) = BitVec.ofNat 8 v := by
  apply BitVec.eq_of_toNat_eq
  simp

/-- Settles O52: `POKE` of a cell is one write at the address the cell is found at. -/
theorem pokeChangesOneRegisterOrCell : Obligations.PokeChangesOneRegisterOrCell := by
  intro s v hadm hwf
  rw [byte_ofNat_mod]
  refine ⟨fun r => rfl, fun addr ha => ?address, fun i hi => ?index,
    fun addr ha => hostPoke_no_cell v (cellAddress_address_outside ha),
    fun i hi => hostPoke_no_cell v (cellAddress_index_outside hi)⟩
  case address =>
    exact ⟨_, hostPoke_cell v (cellAddress_address_inside ha), readByte_write_same hwf rfl rfl ha,
      sameMemoryExcept_of_write rfl rfl, rfl⟩
  case index =>
    have hindex := cellAddress_index_inside hi
    have hin := cellAddress_inside hadm hindex
    have haddress := hostPoke_cell v (cellAddress_address_inside hin)
    exact ⟨(hostPoke_cell v hindex).trans haddress.symm, hin⟩

/-! ### What a request leaves alone (R300) -/

/-- `POKE` leaves everything but the registers and memory. -/
theorem hostPoke_frame (target : PokeTarget) (v : Nat) (s : State) :
    ∃ regs mem, (hostPoke target v s).2 = { s with regs := regs, mem := mem } := by
  cases target with
  | reg r => exact ⟨_, _, rfl⟩
  | cell c =>
    cases hc : cellAddress s.window c with
    | none => exact ⟨s.regs, s.mem, by rw [hostPoke_no_cell v hc]⟩
    | some addr => exact ⟨s.regs, _, by rw [hostPoke_cell v hc]⟩

theorem hostLoad_of_length {s : State} {image : List Byte} (h : image.length = s.window.size) :
    hostLoad image s = (.ok, { hostReset s with mem := Memory.ofImage s.window.base.toNat image }) := if_pos h

theorem hostLoad_of_length_ne {s : State} {image : List Byte} (h : image.length ≠ s.window.size) :
    hostLoad image s = (.refused .imageLength, s) := if_neg h

/-- No request changes the window, from any state. -/
theorem serve_window (r : Request) (s : State) : (serve r s).2.window = s.window := by
  cases r with
  | reset | peek => rfl
  | load image =>
    rw [serve]
    by_cases h : image.length = s.window.size
    · rw [hostLoad_of_length h]; rfl
    · rw [hostLoad_of_length_ne h]
  | step =>
    obtain ⟨t, ht, hstate⟩ | hstate := hostStep_state s
    · obtain ⟨_, i, _, hexec⟩ := step_next ht
      rw [serve, hstate, (exec_stores hexec).1]
    · rw [serve, hstate]
  | poke target v =>
    obtain ⟨regs, mem, hstate⟩ := hostPoke_frame target v s
    rw [serve, hstate]

/-- Settles O54, request by request: `PEEK` leaves the state, and `POKE` all but registers and memory. -/
theorem hostWritesNoFlagPcSpOrHalted : Obligations.HostWritesNoFlagPcSpOrHalted := by
  intro r s
  refine ⟨serve_window r s, fun hchanged => ?_⟩
  cases r with
  | reset => exact .inl rfl
  | step => exact .inr (.inl rfl)
  | load image => exact .inr (.inr ⟨image, rfl⟩)
  | peek target => simp [serve] at hchanged
  | poke target v =>
    obtain ⟨regs, mem, hstate⟩ := hostPoke_frame target v s
    simp [serve, hstate] at hchanged

/-! ### `RESET` and `LOAD` (R290, R292) -/

theorem resetFor_reg (w : Window) (r : Reg) : (State.resetFor w).reg r = 0x00#8 := by cases r <;> rfl

theorem resetFor_flag (w : Window) (f : FlagName) : (State.resetFor w).flags.get f = false := by cases f <;> rfl

/-- A cell of the window reads 0x00 after `RESET` (R36). -/
theorem readByte_hostReset {s : State} {addr : Word} (h : inWindow s.window addr = true) :
    (hostReset s).readByte addr = .ok 0x00#8 := readByte_inside (s := hostReset s) h

/-- The cell of window index `i` reads `image[i]` after `LOAD(image)` (R292). -/
theorem readByte_hostLoad {s : State} {image : List Byte} (hw : s.window.Admissible)
    (hlen : image.length = s.window.size) {i : Nat} {v : Byte} (hv : image[i]? = some v) :
    { hostReset s with mem := Memory.ofImage s.window.base.toNat image }.readByte
      (s.window.base + BitVec.ofNat 16 i) = .ok v := by
  obtain ⟨hi, rfl⟩ := List.getElem?_eq_some_iff.1 hv
  have hsize : i < s.window.size := hlen ▸ hi
  have hin := cellAddress_inside hw (cellAddress_index_inside hsize)
  refine readByte_eq_ok.2 ⟨hin, ?_⟩
  rw [toNat_base_add hw hsize, Memory.read_ofImage _ _ _ hi]

/-- Settles O7: both leave the reset state, `LOAD` with the image for its memory. -/
theorem resetAndLoadSetEveryPieceOfState : Obligations.ResetAndLoadSetEveryPieceOfState := by
  refine ⟨fun s => ?reset, fun s image hw hlen => ?load⟩
  case reset =>
    exact ⟨_, rfl, resetFor_reg s.window, resetFor_flag s.window, rfl, rfl, rfl, rfl, fun _ => readByte_hostReset⟩
  case load =>
    exact ⟨_, hostLoad_of_length hlen, resetFor_reg s.window, resetFor_flag s.window, rfl, rfl, rfl, rfl,
      fun _ _ => readByte_hostLoad hw hlen⟩

end Sys2Proof.Machine
end
